-- ==== Sys2Proof/Word.lean ====
section
/-!
DEFINITION. The word types of the e64b core (00_scope.md R5, R6): the signed 64-bit value, the byte and the unsigned
8-bit index register.
-/
namespace Sys2Proof

/-- `s64` of 00_scope.md R6: 64 bits read in two's complement (`BitVec.toInt`). -/
abbrev S64 := BitVec 64

/-- One byte of an image or of a record (30_encoding.md R80). -/
abbrev Byte := BitVec 8

/-- `u8` of 00_scope.md R6: the width of `PC` and `JR`. -/
abbrev U8 := BitVec 8

end Sys2Proof
end

