-- ==== Sys2Proof/Syntax.lean ====
section
/-!
DEFINITION. The 14 instructions (30_encoding.md R83), one constructor per row of spec/opcode_table.json.
A value is a decoded record `(op, operand)` (10_state.md R29): every instruction carries its decoded operand, also
`NOP`, `OUT` and `HLT`, whose operand is kept and can be read by `LDR` and `ADR` (30_encoding.md R86).
-/
namespace Sys2Proof

/-- A decoded instruction record: the opcode and its operand as an `s64`. -/
inductive Instr where
  /-- tag 0, 42_no_operand.md R150 -/
  | nop (k : S64)
  /-- tag 1, 43_load_store.md R160 -/
  | lda (k : S64)
  /-- tag 2, 43_load_store.md R161 -/
  | sta (k : S64)
  /-- tag 3, 44_arithmetic.md R172 -/
  | add (k : S64)
  /-- tag 4, 44_arithmetic.md R173 -/
  | sub (k : S64)
  /-- tag 5, 42_no_operand.md R151 -/
  | out (k : S64)
  /-- tag 6, 45_control_transfer.md R180 -/
  | jmp (k : S64)
  /-- tag 7, 45_control_transfer.md R181 -/
  | jc (k : S64)
  /-- tag 8, 45_control_transfer.md R182 -/
  | jz (k : S64)
  /-- tag 9, 42_no_operand.md R152 -/
  | hlt (k : S64)
  /-- tag 10, 43_load_store.md R162 -/
  | ldi (v : S64)
  /-- tag 11, 44_arithmetic.md R174 -/
  | adi (v : S64)
  /-- tag 12, 43_load_store.md R163 -/
  | ldr (k : S64)
  /-- tag 13, 44_arithmetic.md R175 -/
  | adr (k : S64)
deriving DecidableEq, Repr, Inhabited

/-- The operand half of a record (20_memory.md R52). -/
def Instr.operand : Instr → S64
  | .nop k => k
  | .lda k => k
  | .sta k => k
  | .add k => k
  | .sub k => k
  | .out k => k
  | .jmp k => k
  | .jc k => k
  | .jz k => k
  | .hlt k => k
  | .ldi v => v
  | .adi v => v
  | .ldr k => k
  | .adr k => k

end Sys2Proof
end

