-- ==== Sys2Proof/Config.lean ====
section
/-!
DEFINITION. The sizes the spec fixes (00_scope.md R5), the parameters it leaves to the model at their defaults
(92_eei_decisions.md D2, D7) and the free values (opaque, without a body, so that no proof can see what they are).
-/
namespace Sys2Proof.Config

/-- `ROM_SIZE` of 00_scope.md R5. -/
def romSize : Nat := 256

/-- `RAM_SIZE` of 00_scope.md R5. -/
def ramSize : Nat := 256

/-- `RECORD_BYTES` of 00_scope.md R5. -/
def recordSize : Nat := 8

/-- `OPERAND_MIN` of 00_scope.md R5, `-2^55`. -/
def operandMin : Int := -36028797018963968

/-- `OPERAND_MAX` of 00_scope.md R5, `2^55 - 1`. -/
def operandMax : Int := 36028797018963967

/-- The greatest tag, `N_OPCODES - 1` (00_scope.md R5, 30_encoding.md R83). -/
def lastTag : Nat := 13

/-- The parameters `A_RESET`, `JR_RESET`, `CARRY_RESET`, `ZERO_RESET` of 10_state.md R35. -/
structure ResetValues where
  a : S64
  jr : U8
  carry : Bool
  zero : Bool
deriving DecidableEq, Repr

/-- The four reset parameters at the spec's default. DESIGN CHOICE, unsafe: 92_eei_decisions.md D2, log 1. -/
def resetValues : ResetValues := ⟨0, 0, false, false⟩

/-- `CHECK_UNTAKEN_JUMP_TARGET` of 45_control_transfer.md R183 at the spec's default. DESIGN CHOICE, unsafe:
92_eei_decisions.md D7, log 5. -/
def checkUntakenJumpTarget : Bool := false

/-- FREE VALUE: the ROM's records before a successful load, "unspecified" (10_state.md R35) and "any value"
(93_implementation_defined.md U21). Safe: log 3. -/
opaque romBeforeLoad : Nat → Instr

/-- FREE VALUE: `ASM_LITERAL_GRAMMAR` (30_encoding.md R92): whether a number is accepted that is written with a leading `+`,
leading zeros, underscores or digits outside ASCII. Safe: log 17. -/
opaque asmLiteral : List Char → Bool

/-- FREE VALUE: `ASM_LINE_BREAKS` (30_encoding.md R94): whether a character the spec leaves open breaks a line.
Safe: log 18. -/
opaque asmLineBreak : Char → Bool

end Sys2Proof.Config
end

