-- ==== Sys2Proof/Machine/State.lean ====
section
/-!
DEFINITION. The architectural state of the e64b core, complete (10_state.md R20), and its reset values (10_state.md R35).
-/
namespace Sys2Proof.Machine

/-- `STATUS` (10_state.md R30). -/
inductive Status where
  /-- reset is done, no image has been loaded -/
  | unloaded
  /-- a ROM is loaded, Steps may be taken -/
  | running
  /-- the last executed instruction was `HLT` -/
  | halted
  /-- an execution fault stopped the run -/
  | faulted
  /-- LOADIMAGE refused the image -/
  | loadFailed
deriving DecidableEq, Repr

/-- The names of the hardware block's faults (60_exceptions.md R190). -/
inductive FaultCause where
  | ramIndexFault
  | romIndexFault
  | jumpTargetFault
  | imageLengthFault
  | imageTooLongFault
  | unknownOpcodeFault
  | operandRangeError
deriving DecidableEq, Repr

/-- The content of `FAULT` when it is not none: `(cause, info, at)` (10_state.md R31, 60_exceptions.md R190). -/
structure FaultRecord where
  /-- the fault's name -/
  cause : FaultCause
  /-- the offending value: operand, length in bytes, record count or tag byte -/
  info : Int
  /-- `at`: the `PC` of the faulting instruction, or the record index of a bad tag -/
  loc : Option Nat
deriving DecidableEq, Repr

/-- Why `step` takes no Step. A fault of the hardware (60_exceptions.md) is not one of these: it is a next state with
`STATUS = FAULTED` or `LOAD_FAILED`. -/
inductive Fault where
  /-- raised by `step` when `STATUS = UNLOADED`: there is no program (10_state.md R30). Safe: log 6. -/
  | noImageLoaded
  /-- raised by `step` when `STATUS = HALTED`: the run has ended (41_execution_cycle.md R134). Safe: log 6. -/
  | runHalted
  /-- raised by `step` when `STATUS = FAULTED`: no further Step is taken (60_exceptions.md R199). Safe: log 6. -/
  | runFaulted
  /-- raised by `step` when `STATUS = LOAD_FAILED`: no Step is ever taken (60_exceptions.md R199). Safe: log 6. -/
  | imageRefused
deriving DecidableEq, Repr

/-- What the model refuses. -/
inductive Refusal where
  /-- raised by an arm of `exec` whose instruction has no meaning: by none in this model. Safe. -/
  | notModelled (mnemonic : String)
  /-- raised by `loadImage` unless `STATUS = UNLOADED`: a second load without a reset is not defined
  (70_reset_and_hazards.md R221, 92_eei_decisions.md D26). Safe: log 11. -/
  | loadWithoutReset
deriving DecidableEq, Repr

/-- A memory as pairs (index, content) in one canonical form: indexes strictly rising, no entry equal to what an unlisted
index reads as (`Memory.wf`). The unit is the cell or the record: the machine has no bytes (20_memory.md R55, log 8). -/
abbrev Memory (β : Type) := List (Nat × β)

/-- The state (10_state.md R20), one field per row. -/
structure State where
  /-- `A`, R21 -/
  a : S64
  /-- `PC`, R22 -/
  pc : U8
  /-- `JR`, R23 -/
  jr : U8
  /-- `CARRY`, R24 -/
  carry : Bool
  /-- `ZERO`, R25 -/
  zero : Bool
  /-- `JP`, R26 -/
  jp : Bool
  /-- `RAM[0..255]`, R28; an unlisted cell reads 0 -/
  ram : Memory S64
  /-- `ROM[0..255]`, R29; once an image is loaded an unlisted record reads `(HLT, 0)` -/
  rom : Memory Instr
  /-- `STATUS`, R30 -/
  status : Status
  /-- `FAULT`, R31 -/
  fault : Option FaultRecord
  /-- `OUT_TRACE`, R32, oldest value first -/
  outTrace : List S64
deriving DecidableEq, Repr

/-- Reset (70_reset_and_hazards.md R220) for given values of the four reset parameters (10_state.md R35). -/
def State.resetWith (v : Config.ResetValues) : State where
  a := v.a
  pc := 0
  jr := v.jr
  carry := v.carry
  zero := v.zero
  jp := false
  ram := []
  rom := []
  status := .unloaded
  fault := none
  outTrace := []

/-- The machine right after reset (10_state.md R35), the parameters at the spec's defaults: log 1, log 2. -/
def State.reset : State := State.resetWith Config.resetValues

end Sys2Proof.Machine
end

