-- ==== Sys2Proof/Machine/Ops.lean ====
section
/-!
DEFINITION. The named operations over memories and registers that every instruction is made of: RAM and ROM access, the
output sink, the jump request, the control advance, the end of a Step, and taking a fault.
There is no return from a fault (60_exceptions.md R201).
-/
namespace Sys2Proof.Machine

/-- What a meaning answers. -/
abbrev Result := Host.Outcome State Fault Refusal

/-- The content at index `k`; `d` where nothing is listed. -/
def Memory.read {β : Type} (d : β) : Memory β → Nat → β
  | [], _ => d
  | (j, v) :: m, k => if j = k then v else Memory.read d m k

/-- The memory with `v` at index `k`, in canonical form when it was: an entry equal to `d` is not listed. -/
def Memory.write {β : Type} [DecidableEq β] (d : β) : Memory β → Nat → β → Memory β
  | [], k, v => if v = d then [] else [(k, v)]
  | (j, w) :: m, k, v =>
    if k < j then
      if v = d then (j, w) :: m else (k, v) :: (j, w) :: m
    else if k = j then
      if v = d then m else (k, v) :: m
    else (j, w) :: Memory.write d m k v

/-- The canonical form: indexes below `size`, strictly rising, no entry equal to `d`. -/
def Memory.wf {β : Type} [DecidableEq β] (d : β) (size : Nat) : Memory β → Bool
  | [] => true
  | (j, v) :: m =>
    decide (j < size) && decide (v ≠ d) && m.all (fun c => decide (j < c.1)) && Memory.wf d size m

/-- What a RAM cell holds that has not been written since reset: 0 (10_state.md R28, 20_memory.md R51). -/
def ramDefault : S64 := 0

/-- The padding record `(HLT, 0)` (40_codec_operations.md R113). -/
def romDefault : Instr := .hlt 0

/-- A successful load has built the ROM (10_state.md R30, R37). -/
def Status.romLoaded : Status → Bool
  | .unloaded => false
  | .running => true
  | .halted => true
  | .faulted => true
  | .loadFailed => false

/-- `MemRead(k, 64)` (20_memory.md R51). -/
def ramRead (s : State) (k : Nat) : S64 :=
  Memory.read ramDefault s.ram k

/-- `MemWrite(k, 64, v)` (20_memory.md R51). -/
def ramWrite (k : Nat) (v : S64) (s : State) : State :=
  { s with ram := Memory.write ramDefault s.ram k v }

/-- `RomRead(k)` (20_memory.md R52): the record as LOADIMAGE built it; before a load any value (log 3). -/
def romRead (s : State) (k : Nat) : Instr :=
  if s.status.romLoaded then Memory.read romDefault s.rom k else Config.romBeforeLoad k

/-- The operand half of ROM record `k`, read as data (20_memory.md R52). -/
def romOperand (s : State) (k : Nat) : S64 :=
  (romRead s k).operand

/-- `A <- v`. -/
def setA (v : S64) (s : State) : State :=
  { s with a := v }

/-- `Emit(A)`: the output sink always accepts (10_state.md R32, log 15). -/
def emitA (s : State) : State :=
  { s with outTrace := s.outTrace ++ [s.a] }

/-- The jump request of `JMP`, `JC` and `JZ`: `JR <- t; JP <- 1` (45_control_transfer.md R180). -/
def requestJump (t : Nat) (s : State) : State :=
  { s with jr := .ofNat 8 t, jp := true }

/-- The control advance that ends every Step that does not fault (41_execution_cycle.md R133). -/
def controlAdvance (s : State) : State :=
  if s.jp then { s with pc := s.jr, jp := false } else { s with pc := s.pc + 1 }

/-- The end of a Step whose effect left `s`: the control advance runs (41_execution_cycle.md R130). -/
def complete (s : State) : Result :=
  .next (controlAdvance s)

/-- The end of a Step that executed `HLT`: the control advance, then `STATUS <- HALTED` (41_execution_cycle.md R130, R134). -/
def completeHalting (s : State) : Result :=
  .next { controlAdvance s with status := .halted }

/-- TAKING A FAULT in a Step, for all instructions (41_execution_cycle.md R135, 60_exceptions.md R199, R200): the fault and
the instruction's own index are recorded, nothing else changes, and no control advance runs. -/
def takeFault (c : FaultCause) (k : S64) (s : State) : Result :=
  .next { s with status := .faulted, fault := some ⟨c, k.toInt, some s.pc.toNat⟩ }

/-- The fetch of a Step: the record at `PC` (41_execution_cycle.md R131). -/
def fetch (s : State) : Instr :=
  romRead s s.pc.toNat

/-- The code of a fault (60_exceptions.md R190). -/
def FaultCause.code : FaultCause → Nat
  | .ramIndexFault => 1
  | .romIndexFault => 2
  | .jumpTargetFault => 3
  | .imageLengthFault => 4
  | .imageTooLongFault => 5
  | .unknownOpcodeFault => 6
  | .operandRangeError => 7

/-- The status port: `STATUS` and `FAULT` (40_codec_operations.md R118). -/
def statusPort (s : State) : Status × Option FaultRecord :=
  (s.status, s.fault)

end Sys2Proof.Machine
end

