-- ==== Sys2Proof/Machine/Flags.lean ====
section
/-!
DEFINITION. The ALU (44_arithmetic.md R170, R171): the exact result in the integers, narrowed at the end, with `CARRY` and
`ZERO` computed from it.
-/
namespace Sys2Proof.Machine

/-- `fits64` of 00_scope.md R8. -/
def fits64 (z : Int) : Bool :=
  decide (-9223372036854775808 ≤ z ∧ z ≤ 9223372036854775807)

/-- `wrap64` of 00_scope.md R8: the value of 64 bits that is `z` modulo `2^64`. -/
def wrap64 (z : Int) : S64 :=
  .ofInt 64 z

/-- The writes of one ALU call whose exact result is `z`: both flags, always, then `A` (44_arithmetic.md R170). -/
def aluResult (z : Int) (s : State) : State :=
  { s with a := wrap64 z, carry := !fits64 z, zero := wrap64 z == 0 }

/-- `AluAdd(x)` (44_arithmetic.md R170). -/
def aluAdd (x : S64) (s : State) : State :=
  aluResult (s.a.toInt + x.toInt) s

/-- `AluSub(x)` (44_arithmetic.md R171): `CARRY` is judged on the exact difference (92_eei_decisions.md D16, log 10). -/
def aluSub (x : S64) (s : State) : State :=
  aluResult (s.a.toInt - x.toInt) s

end Sys2Proof.Machine
end

