-- ==== Sys2Proof/Machine/Operands.lean ====
section
/-!
DEFINITION. The operand forms: the index conversions of 41_execution_cycle.md R132. The one addressing mode is absolute
(43_load_store.md); a literal is the operand itself.
-/
namespace Sys2Proof.Machine

/-- The check `0 <= k <= 255` on the value of the whole 64-bit operand, never on its low bits (20_memory.md R53). -/
def inRange (k : S64) : Bool :=
  decide (0 ≤ k.toInt ∧ k.toInt ≤ 255)

/-- An index conversion: the instruction goes on with the index, or takes the fault `c` (41_execution_cycle.md R132). -/
def withIndex (c : FaultCause) (k : S64) (s : State) (go : Nat → Result) : Result :=
  if inRange k then go k.toInt.toNat else takeFault c k s

/-- `RamIndex(k)`, used by `LDA`, `STA`, `ADD`, `SUB` (41_execution_cycle.md R132, 60_exceptions.md R191). -/
def withRamIndex (k : S64) (s : State) (go : Nat → Result) : Result :=
  withIndex .ramIndexFault k s go

/-- `RomIndex(k)`, used by `LDR`, `ADR` (41_execution_cycle.md R132, 60_exceptions.md R192). -/
def withRomIndex (k : S64) (s : State) (go : Nat → Result) : Result :=
  withIndex .romIndexFault k s go

/-- `JumpIndex(k)`, used by `JMP` and by a taken `JC` or `JZ` (41_execution_cycle.md R132, 60_exceptions.md R193). -/
def withJumpIndex (k : S64) (s : State) (go : Nat → Result) : Result :=
  withIndex .jumpTargetFault k s go

/-- A jump that is taken (45_control_transfer.md R180). -/
def takeJump (k : S64) (s : State) : Result :=
  withJumpIndex k s fun t => complete (requestJump t s)

/-- A conditional jump (45_control_transfer.md R181, R182). `check` is the parameter `CHECK_UNTAKEN_JUMP_TARGET` of R183:
where it is false an untaken jump does not look at its operand. -/
def jumpIf (check taken : Bool) (k : S64) (s : State) : Result :=
  if taken then takeJump k s
  else if check then withJumpIndex k s fun _ => complete s
  else complete s

end Sys2Proof.Machine
end

