-- ==== Sys2Proof/Machine/Arithmetic.lean ====
section
/-!
DEFINITION. `ADD`, `SUB`, `ADI`, `ADR` (44_arithmetic.md). All four execute: the reference program's stubs are no behaviour
of this machine (60_exceptions.md R198, 90_conflicts.md C9).
-/
namespace Sys2Proof.Machine

/-- `ADD k` (44_arithmetic.md R172). -/
def execAdd (k : S64) (s : State) : Result :=
  withRamIndex k s fun i => complete (aluAdd (ramRead s i) s)

/-- `SUB k` (44_arithmetic.md R173). -/
def execSub (k : S64) (s : State) : Result :=
  withRamIndex k s fun i => complete (aluSub (ramRead s i) s)

/-- `ADI v` (44_arithmetic.md R174). -/
def execAdi (v : S64) (s : State) : Result :=
  complete (aluAdd v s)

/-- `ADR k` (44_arithmetic.md R175). -/
def execAdr (k : S64) (s : State) : Result :=
  withRomIndex k s fun i => complete (aluAdd (romOperand s i) s)

end Sys2Proof.Machine
end

