-- ==== Sys2Proof/Machine/ControlTransfer.lean ====
section
/-!
DEFINITION. `JMP`, `JC`, `JZ` (45_control_transfer.md).
-/
namespace Sys2Proof.Machine

/-- `JMP k` (45_control_transfer.md R180). -/
def execJmp (k : S64) (s : State) : Result :=
  takeJump k s

/-- `JC k` (45_control_transfer.md R181, R183). -/
def execJc (k : S64) (s : State) : Result :=
  jumpIf Config.checkUntakenJumpTarget s.carry k s

/-- `JZ k` (45_control_transfer.md R182, R183). -/
def execJz (k : S64) (s : State) : Result :=
  jumpIf Config.checkUntakenJumpTarget s.zero k s

end Sys2Proof.Machine
end

