-- ==== Sys2Proof/Machine/LoadStore.lean ====
section
/-!
DEFINITION. `LDA`, `STA`, `LDI`, `LDR` (43_load_store.md). None of them touches a flag (R164).
-/
namespace Sys2Proof.Machine

/-- `LDA k` (43_load_store.md R160). -/
def execLda (k : S64) (s : State) : Result :=
  withRamIndex k s fun i => complete (setA (ramRead s i) s)

/-- `STA k` (43_load_store.md R161). -/
def execSta (k : S64) (s : State) : Result :=
  withRamIndex k s fun i => complete (ramWrite i s.a s)

/-- `LDI v` (43_load_store.md R162). -/
def execLdi (v : S64) (s : State) : Result :=
  complete (setA v s)

/-- `LDR k` (43_load_store.md R163). -/
def execLdr (k : S64) (s : State) : Result :=
  withRomIndex k s fun i => complete (setA (romOperand s i) s)

end Sys2Proof.Machine
end

