-- ==== Sys2Proof/Machine/NoOperand.lean ====
section
/-!
DEFINITION. `NOP`, `OUT`, `HLT` (42_no_operand.md): the instructions that ignore their operand.
-/
namespace Sys2Proof.Machine

/-- `NOP` (42_no_operand.md R150). -/
def execNop (_k : S64) (s : State) : Result :=
  complete s

/-- `OUT` (42_no_operand.md R151). -/
def execOut (_k : S64) (s : State) : Result :=
  complete (emitA s)

/-- `HLT` (42_no_operand.md R152). -/
def execHlt (_k : S64) (s : State) : Result :=
  completeHalting s

end Sys2Proof.Machine
end

