-- ==== Sys2Proof/Machine/Dispatch.lean ====
section
/-!
DEFINITION. One arm per instruction: the effect, the control advance and, for `HLT`, the halt (41_execution_cycle.md R130).
-/
namespace Sys2Proof.Machine

def exec (i : Instr) (s : State) : Host.Outcome State Fault Refusal :=
  match i with
  | .nop k => Sys2Proof.Machine.execNop k s
  | .lda k => Sys2Proof.Machine.execLda k s
  | .sta k => Sys2Proof.Machine.execSta k s
  | .add k => Sys2Proof.Machine.execAdd k s
  | .sub k => Sys2Proof.Machine.execSub k s
  | .out k => Sys2Proof.Machine.execOut k s
  | .jmp k => Sys2Proof.Machine.execJmp k s
  | .jc k => Sys2Proof.Machine.execJc k s
  | .jz k => Sys2Proof.Machine.execJz k s
  | .hlt k => Sys2Proof.Machine.execHlt k s
  | .ldi v => Sys2Proof.Machine.execLdi v s
  | .adi v => Sys2Proof.Machine.execAdi v s
  | .ldr k => Sys2Proof.Machine.execLdr k s
  | .adr k => Sys2Proof.Machine.execAdr k s

end Sys2Proof.Machine
end

