-- ==== Sys2Proof/WellFormed.lean ====
section
/-!
DEFINITION. Which instructions have an encoding: the operand lies in the signed 56-bit range (40_codec_operations.md R110).
An index outside 0 to 255 is a legal encoding (30_encoding.md R87).
-/
namespace Sys2Proof

/-- `v` fits the 56-bit operand field (30_encoding.md R82). -/
abbrev OperandFits (v : S64) : Prop :=
  Config.operandMin ≤ v.toInt ∧ v.toInt ≤ Config.operandMax

/-- The one condition under which a record can be encoded, the same for all 14 opcodes (40_codec_operations.md R110). -/
abbrev Instr.WellFormed (i : Instr) : Prop := OperandFits i.operand

end Sys2Proof
end

