-- ==== Sys2Proof/Decode.lean ====
section
/-!
DEFINITION. The instruction codec: the opcode map (30_encoding.md R83), DECODE (40_codec_operations.md R111), ENCODE (R110),
SERIALIZE (R116), the pack and unpack ports (R118), and the host's view of one record word.
-/
namespace Sys2Proof

/-- Why the codec gives no result. -/
inductive CodecError where
  /-- fewer than 8 bytes are left: DECODE's input is exactly 8 bytes; log 13 -/
  | truncatedRecord
  /-- `UnknownOpcodeFault` (60_exceptions.md R196) -/
  | unknownOpcode (tag : Byte)
  /-- `OperandRangeError` (60_exceptions.md R197) -/
  | operandRange (v : S64)
deriving DecidableEq, Repr

/-- The tag of an opcode (30_encoding.md R83). -/
def tagOf : Instr → Byte
  | .nop _ => 0x00
  | .lda _ => 0x01
  | .sta _ => 0x02
  | .add _ => 0x03
  | .sub _ => 0x04
  | .out _ => 0x05
  | .jmp _ => 0x06
  | .jc _ => 0x07
  | .jz _ => 0x08
  | .hlt _ => 0x09
  | .ldi _ => 0x0A
  | .adi _ => 0x0B
  | .ldr _ => 0x0C
  | .adr _ => 0x0D

/-- The opcode whose tag is `t`, with operand `v`; none for the illegal tags 14 to 255 (30_encoding.md R83, R85). -/
def ofTag (t : Byte) (v : S64) : Option Instr :=
  match t.toNat with
  | 0 => some (.nop v)
  | 1 => some (.lda v)
  | 2 => some (.sta v)
  | 3 => some (.add v)
  | 4 => some (.sub v)
  | 5 => some (.out v)
  | 6 => some (.jmp v)
  | 7 => some (.jc v)
  | 8 => some (.jz v)
  | 9 => some (.hlt v)
  | 10 => some (.ldi v)
  | 11 => some (.adi v)
  | 12 => some (.ldr v)
  | 13 => some (.adr v)
  | _ => none

/-- `W[55:0]`, the operand field: `B1` is its most significant byte (30_encoding.md R81). -/
def operandField (b1 b2 b3 b4 b5 b6 b7 : Byte) : BitVec 56 :=
  b1 ++ b2 ++ b3 ++ b4 ++ b5 ++ b6 ++ b7

/-- `sext_56` of 00_scope.md R8 (30_encoding.md R82). -/
def sext56 (u : BitVec 56) : S64 :=
  u.signExtend 64

/-- DECODE of the 8 bytes of one record (40_codec_operations.md R111). -/
def decodeRecord (b0 b1 b2 b3 b4 b5 b6 b7 : Byte) : Except CodecError Instr :=
  match ofTag b0 (sext56 (operandField b1 b2 b3 b4 b5 b6 b7)) with
  | some i => .ok i
  | none => .error (.unknownOpcode b0)

/-- DECODE of the record at the head of a byte buffer, with the bytes after it. -/
def decode : List Byte → Except CodecError (Instr × List Byte)
  | b0 :: b1 :: b2 :: b3 :: b4 :: b5 :: b6 :: b7 :: rest =>
    match decodeRecord b0 b1 b2 b3 b4 b5 b6 b7 with
    | .ok i => .ok (i, rest)
    | .error e => .error e
  | _ => .error .truncatedRecord

/-- The unpack port: 8 bytes in, tag and operand or the error out (40_codec_operations.md R118). -/
def unpack (b0 b1 b2 b3 b4 b5 b6 b7 : Byte) : Except CodecError (Byte × S64) :=
  match decodeRecord b0 b1 b2 b3 b4 b5 b6 b7 with
  | .ok i => .ok (tagOf i, i.operand)
  | .error e => .error e

/-- The 8 bytes of a record, `B0` first (40_codec_operations.md R110): the low 56 bits of the two's-complement operand,
most significant byte first. -/
def recordBytes (t : Byte) (v : S64) : List Byte :=
  [t, v.extractLsb' 48 8, v.extractLsb' 40 8, v.extractLsb' 32 8, v.extractLsb' 24 8,
    v.extractLsb' 16 8, v.extractLsb' 8 8, v.extractLsb' 0 8]

/-- The pack port: ENCODE on a tag byte and an operand (40_codec_operations.md R110, R118). A tag of 14 or more is refused
(92_eei_decisions.md D14), before the operand is looked at: log 12. -/
def pack (t : Byte) (v : S64) : Except CodecError (List Byte) :=
  if t.toNat ≤ Config.lastTag then
    if OperandFits v then .ok (recordBytes t v) else .error (.operandRange v)
  else .error (.unknownOpcode t)

/-- ENCODE (40_codec_operations.md R110). -/
def encode (i : Instr) : Except CodecError (List Byte) :=
  pack (tagOf i) i.operand

/-- SERIALIZE: the encodings in order, or the first error and no bytes (40_codec_operations.md R116). -/
def serialize : List Instr → Except CodecError (List Byte)
  | [] => .ok []
  | i :: p =>
    match encode i with
    | .error e => .error e
    | .ok bs =>
      match serialize p with
      | .error e => .error e
      | .ok cs => .ok (bs ++ cs)

/-- The 8 bytes of the record word `W`, `B0` (its most significant byte) first (00_scope.md R7). -/
def wordBytes (w : Nat) : List Byte :=
  [.ofNat 8 (w / 2 ^ 56), .ofNat 8 (w / 2 ^ 48), .ofNat 8 (w / 2 ^ 40), .ofNat 8 (w / 2 ^ 32),
    .ofNat 8 (w / 2 ^ 24), .ofNat 8 (w / 2 ^ 16), .ofNat 8 (w / 2 ^ 8), .ofNat 8 w]

/-- The instruction the decoder reads from the record word whose low `nbits` bits are those of `w` and whose other bits are
zero, numbered as spec/opcode_table.json numbers them (30_encoding.md R80): log 19. -/
def decodeTableWord (nbits w : Nat) : Option Instr :=
  match decode (wordBytes (w % 2 ^ nbits)) with
  | .ok (i, _) => some i
  | .error _ => none

end Sys2Proof
end

