-- ==== Sys2Proof/Machine/Load.lean ====
section
/-!
DEFINITION. What the host does to the machine: LOADIMAGE (40_codec_operations.md R113, R114), the boot of a run
(70_reset_and_hazards.md R221), and the placing of one record where the next Step fetches it.
-/
namespace Sys2Proof.Machine

/-- The records of an image from record `i` on, or the first bad tag with its record index (40_codec_operations.md R113,
R114). Bytes of a last partial record, which LOADIMAGE has refused before, are not read. -/
def decodeImage : Nat → List Byte → Except (Byte × Nat) (List Instr)
  | i, b0 :: b1 :: b2 :: b3 :: b4 :: b5 :: b6 :: b7 :: rest =>
    match decodeRecord b0 b1 b2 b3 b4 b5 b6 b7 with
    | .error _ => .error (b0, i)
    | .ok r =>
      match decodeImage (i + 1) rest with
      | .error e => .error e
      | .ok rs => .ok (r :: rs)
  | _, _ => .ok []

/-- The ROM whose records from index `i` on are `rs`, padded with `(HLT, 0)` (40_codec_operations.md R113). -/
def romOf : Nat → List Instr → Memory Instr
  | _, [] => []
  | i, r :: rs => if r = romDefault then romOf (i + 1) rs else (i, r) :: romOf (i + 1) rs

/-- A load fault (60_exceptions.md R199): only `STATUS` and `FAULT` are written. -/
def failLoad (c : FaultCause) (info : Nat) (loc : Option Nat) (s : State) : Result :=
  .next { s with status := .loadFailed, fault := some ⟨c, (info : Int), loc⟩ }

/-- LOADIMAGE (40_codec_operations.md R113), its checks in the order of R114; refused unless `STATUS = UNLOADED`
(92_eei_decisions.md D26, log 11). -/
def loadImage (bytes : List Byte) (s : State) : Result :=
  if s.status = .unloaded then
    if bytes.length % Config.recordSize ≠ 0 then
      failLoad .imageLengthFault bytes.length none s
    else if Config.romSize < bytes.length / Config.recordSize then
      failLoad .imageTooLongFault (bytes.length / Config.recordSize) none s
    else
      match decodeImage 0 bytes with
      | .error (b, i) => failLoad .unknownOpcodeFault b.toNat (some i) s
      | .ok rs => .next { s with rom := romOf 0 rs, status := .running }
  else .refused .loadWithoutReset

/-- Reset may be applied in any state and nothing survives it (70_reset_and_hazards.md R220). -/
def resetMachine (_s : State) : State :=
  State.reset

/-- The start of a run in any state: reset, then one load (70_reset_and_hazards.md R221). -/
def boot (bytes : List Byte) (s : State) : Result :=
  loadImage bytes (resetMachine s)

/-- The record with word `w` placed in ROM at `PC`, as the load of an image that holds it there would place it, with
`STATUS = RUNNING`; where the word has no meaning that load fails (60_exceptions.md R196). Log 19. -/
def placeRecord (nbits w : Nat) (s : State) : State :=
  match decodeTableWord nbits w with
  | some i => { s with rom := Memory.write romDefault s.rom s.pc.toNat i, status := .running }
  | none =>
    { s with
      status := .loadFailed
      fault := some ⟨.unknownOpcodeFault, ((w % 2 ^ nbits / 2 ^ 56 % 256 : Nat) : Int), some s.pc.toNat⟩ }

end Sys2Proof.Machine
end

