-- ==== Sys2Proof/Machine/Step.lean ====
section
/-!
DEFINITION. One Step of the run loop (41_execution_cycle.md R130, R136): taken only while `STATUS = RUNNING`.
-/
namespace Sys2Proof.Machine

/-- The fetch of the record at `PC` and its execution. A machine that is not running takes no Step (10_state.md R30): the
stop has a name for each status, log 6. -/
def step (s : State) : Host.Outcome State Fault Refusal :=
  match s.status with
  | .running => exec (fetch s) s
  | .unloaded => .fault .noImageLoaded
  | .halted => .fault .runHalted
  | .faulted => .fault .runFaulted
  | .loadFailed => .fault .imageRefused

/-- `s` with the record of word `w` where the next Step fetches it, and running: log 19. -/
def State.withFetchWord (s : State) (nbits w : Nat) : State :=
  placeRecord nbits w s

end Sys2Proof.Machine
end

