-- ==== Sys2Proof/Machine/Assembler.lean ====
section
/-!
DEFINITION. The assembler's text front end and the text form of values (30_encoding.md section 6). It is software outside the
hardware block (00_scope.md R4, log 16); no definition of the machine uses this file.
-/
namespace Sys2Proof.Machine

/-- Why assembly fails (30_encoding.md R97). -/
inductive AsmError where
  /-- a line with no token (30_encoding.md R95) -/
  | blankLine
  | unknownMnemonic
  | missingOperand
  /-- not a number, or none that fits a signed 64-bit value (30_encoding.md R91) -/
  | badOperand
  /-- 30_encoding.md R93 -/
  | extraToken
  /-- the operand is out of the encodable range (30_encoding.md R97) -/
  | operandRange (v : S64)
deriving DecidableEq, Repr

/-- White space. PRESUMED, unsafe: the characters of Unicode's White_Space; the spec lists none. Log 16. -/
def isBlank (c : Char) : Bool :=
  let n := c.toNat
  (decide (9 ≤ n) && decide (n ≤ 13)) || n == 32 || n == 133 || n == 160 || n == 5760 ||
    (decide (8192 ≤ n) && decide (n ≤ 8202)) || n == 8232 || n == 8233 || n == 8239 || n == 8287 || n == 12288

/-- The white-space-delimited tokens; `cur` holds the characters of the token being read, last first
(30_encoding.md R90, R91). -/
def tokens (cur : List Char) : List Char → List (List Char)
  | [] => if cur = [] then [] else [cur.reverse]
  | c :: cs =>
    if isBlank c then
      if cur = [] then tokens [] cs else cur.reverse :: tokens [] cs
    else tokens (c :: cur) cs

/-- The 14 names, case-sensitive (30_encoding.md R83, R91). -/
def mnemonicTable : List (List Char × Byte) :=
  [(['N', 'O', 'P'], 0x00), (['L', 'D', 'A'], 0x01), (['S', 'T', 'A'], 0x02), (['A', 'D', 'D'], 0x03)] ++
  [(['S', 'U', 'B'], 0x04), (['O', 'U', 'T'], 0x05), (['J', 'M', 'P'], 0x06), (['J', 'C'], 0x07)] ++
  [(['J', 'Z'], 0x08), (['H', 'L', 'T'], 0x09), (['L', 'D', 'I'], 0x0A), (['A', 'D', 'I'], 0x0B)] ++
  [(['L', 'D', 'R'], 0x0C), (['A', 'D', 'R'], 0x0D)]

/-- The tag a mnemonic stands for. -/
def tagOfName (name : List Char) : Option Byte :=
  (mnemonicTable.find? fun r => decide (r.1 = name)).map Prod.snd

/-- The mnemonic a tag stands for. -/
def nameOfTag (t : Byte) : List Char :=
  ((mnemonicTable.find? fun r => decide (r.2 = t)).map Prod.fst).getD []

/-- The mnemonic of an opcode. -/
def nameOf (i : Instr) : List Char :=
  nameOfTag (tagOf i)

/-- `NOP`, `OUT` and `HLT` take no operand (30_encoding.md R91). -/
def takesOperand (t : Byte) : Bool :=
  !(t == 0x00 || t == 0x05 || t == 0x09)

/-- Digits `0` to `9`. -/
def isDigits (ds : List Char) : Bool :=
  !ds.isEmpty && ds.all fun c => decide (48 ≤ c.toNat) && decide (c.toNat ≤ 57)

/-- Digits with no needless leading zero: the numbers whose reading the spec settles (30_encoding.md R92). -/
def isPlainDigits (ds : List Char) : Bool :=
  isDigits ds && (ds.length == 1 || ds.head? != some '0')

/-- The value of decimal digits. -/
def digitsValue (ds : List Char) : Int :=
  (Nat.ofDigitChars 10 ds 0 : Nat)

/-- Where the runs of ten decimal digits outside ASCII begin, each from its zero to its nine. PRESUMED, unsafe: Unicode 16's
decimal digits (category Nd), 75 runs; the spec lists none. Log 17. -/
def digitZeros : List Nat :=
  [0x660, 0x6F0, 0x7C0, 0x966, 0x9E6, 0xA66, 0xAE6, 0xB66, 0xBE6, 0xC66, 0xCE6, 0xD66] ++
  [0xDE6, 0xE50, 0xED0, 0xF20, 0x1040, 0x1090, 0x17E0, 0x1810, 0x1946, 0x19D0, 0x1A80, 0x1A90] ++
  [0x1B50, 0x1BB0, 0x1C40, 0x1C50, 0xA620, 0xA8D0, 0xA900, 0xA9D0, 0xA9F0, 0xAA50, 0xABF0, 0xFF10] ++
  [0x104A0, 0x10D30, 0x10D40, 0x11066, 0x110F0, 0x11136, 0x111D0, 0x112F0, 0x11450, 0x114D0, 0x11650, 0x116C0] ++
  [0x116D0, 0x116DA, 0x11730, 0x118E0, 0x11950, 0x11BF0, 0x11C50, 0x11D50, 0x11DA0, 0x11F50, 0x16130, 0x16A60] ++
  [0x16AC0, 0x16B50, 0x16D70, 0x1CCF0, 0x1D7CE, 0x1D7D8, 0x1D7E2, 0x1D7EC, 0x1D7F6, 0x1E140, 0x1E2F0, 0x1E4F0] ++
  [0x1E5F1, 0x1E950, 0x1FBF0]

/-- The value of a decimal digit, of ASCII or not; `none` for every other character. -/
def digitValue (c : Char) : Option Nat :=
  if 48 ≤ c.toNat ∧ c.toNat ≤ 57 then some (c.toNat - 48)
  else (digitZeros.find? fun z => decide (z ≤ c.toNat) && decide (c.toNat ≤ z + 9)).map fun z => c.toNat - z

/-- Digits of any script, leading zeros allowed, a digit at either end and underscores only between: every form of
number whose acceptance 30_encoding.md R92 and 91_not_in_source.md N13 leave open, but for its sign. Log 17. -/
def isNumeral (ds : List Char) : Bool :=
  (ds.head?.any fun c => (digitValue c).isSome) && (ds.getLast?.any fun c => (digitValue c).isSome) &&
    ds.all fun c => (digitValue c).isSome || c == '_'

/-- The value of a numeral in base 10 (30_encoding.md R91); an underscore counts for nothing. -/
def numeralValue (ds : List Char) : Int :=
  ((ds.filterMap digitValue).foldl (fun n d => 10 * n + d) 0 : Nat)

/-- The value of a numeral in a form the spec leaves open: whether the token `tok` is accepted is a free value
(30_encoding.md R92, log 17). What is no numeral is refused (R91). -/
def openLiteral (tok ds : List Char) : Option Int :=
  if isNumeral ds && Config.asmLiteral tok then some (numeralValue ds) else none

/-- The value of the token `tok` that is a sign, or none, before `ds` (30_encoding.md R92). -/
def magnitude (tok ds : List Char) : Option Int :=
  if isPlainDigits ds then some (digitsValue ds) else openLiteral tok ds

/-- An optional `-` and decimal digits (30_encoding.md R92), or an open form that is accepted (log 17); any other token is
not numeric (R91). -/
def literalValue (tok : List Char) : Option Int :=
  match tok with
  | '-' :: ds => (magnitude tok ds).map fun z => -z
  | '+' :: ds => openLiteral tok ds
  | ds => magnitude tok ds

/-- The operand token: a base-10 signed integer that fits a signed 64-bit value (30_encoding.md R91). -/
def parseOperand (tok : List Char) : Except AsmError S64 :=
  match literalValue tok with
  | none => .error .badOperand
  | some z =>
    if -9223372036854775808 ≤ z ∧ z ≤ 9223372036854775807 then .ok (.ofInt 64 z) else .error .badOperand

/-- The tokens of one line as an instruction (30_encoding.md R91, R93, R95). Which mistake a line with several is reported
for: an unknown mnemonic, then an extra token, then a bad operand. DESIGN CHOICE, unsafe: R97 names the errors without an
order, log 25. -/
def parseTokens : List (List Char) → Except AsmError Instr
  | [] => .error .blankLine
  | name :: args =>
    match tagOfName name with
    | none => .error .unknownMnemonic
    | some t =>
      match takesOperand t, args with
      | false, [] =>
        match ofTag t 0 with
        | some i => .ok i
        | none => .error .unknownMnemonic
      | false, _ :: _ => .error .extraToken
      | true, [] => .error .missingOperand
      | true, [tok] =>
        match parseOperand tok with
        | .error e => .error e
        | .ok v =>
          match ofTag t v with
          | some i => .ok i
          | none => .error .unknownMnemonic
      | true, _ :: _ :: _ => .error .extraToken

/-- ParseLine (30_encoding.md R91). -/
def parseLine (text : List Char) : Except AsmError Instr :=
  parseTokens (tokens [] text)

/-- A character that breaks a line: a line feed always; others the spec leaves open are a free value
(30_encoding.md R94, log 18). -/
def isLineBreak (c : Char) : Bool :=
  c == '\n' ||
    ((c.toNat == 11 || c.toNat == 12 || c.toNat == 13 || c.toNat == 133 || c.toNat == 8232 || c.toNat == 8233) &&
      Config.asmLineBreak c)

/-- The lines of a text; `cur` holds the characters of the line being read, last first. A carriage return before a line feed
is part of that break: as white space at a line's end it could not be told from it. -/
def splitLines (cur : List Char) : List Char → List (List Char)
  | [] => [cur.reverse]
  | '\r' :: '\n' :: cs => cur.reverse :: splitLines [] cs
  | c :: cs => if isLineBreak c then cur.reverse :: splitLines [] cs else splitLines (c :: cur) cs

/-- Leading and trailing white space removed (30_encoding.md R94). -/
def trimText (text : List Char) : List Char :=
  ((text.dropWhile isBlank).reverse.dropWhile isBlank).reverse

/-- ParseLine on each line in order; the first error fails the whole (30_encoding.md R94). -/
def parseLines : List (List Char) → Except AsmError (List Instr)
  | [] => .ok []
  | l :: ls =>
    match parseLine l with
    | .error e => .error e
    | .ok i =>
      match parseLines ls with
      | .error e => .error e
      | .ok is => .ok (i :: is)

/-- Assemble (30_encoding.md R94); an empty text gives the empty sequence (R95). -/
def assemble (text : List Char) : Except AsmError (List Instr) :=
  if trimText text = [] then .ok [] else parseLines (splitLines [] (trimText text))

/-- A text to its image: Assemble, then SERIALIZE; any error leaves no bytes (30_encoding.md R97).
An error of any line is reported before an operand out of the encodable range: DEDUCED, unsafe, log 25. -/
def assembleImage (text : List Char) : Except AsmError (List Byte) :=
  match assemble text with
  | .error e => .error e
  | .ok p =>
    match serialize p with
    | .ok bs => .ok bs
    | .error (.operandRange v) => .error (.operandRange v)
    | .error _ => .error .unknownMnemonic

/-- A number in decimal. -/
def decimal (z : Int) : List Char :=
  if z < 0 then '-' :: Nat.toDigits 10 z.natAbs else Nat.toDigits 10 z.natAbs

/-- The line the host shows for an emitted value (70_reset_and_hazards.md R228). -/
def hostLine (v : S64) : List Char :=
  decimal v.toInt

/-- The text of a record (30_encoding.md R98): canonical form, or with the ignored operand in brackets, which the assembler
does not accept. -/
def disassemble (i : Instr) : List Char :=
  if takesOperand (tagOf i) then nameOf i ++ ' ' :: decimal i.operand.toInt
  else if i.operand = 0 then nameOf i
  else nameOf i ++ [' ', '[', 'o', 'p', 'e', 'r', 'a', 'n', 'd', '='] ++ decimal i.operand.toInt ++ [']']

end Sys2Proof.Machine
end

