-- ==== Sys2Proof/Machine/Run.lean ====
section
/-!
DEFINITION. The run loop (41_execution_cycle.md R136) under a bound of the executor's own, and the Step function as the source
exposes it to a caller other than the loop (R137).
-/
namespace Sys2Proof.Machine

/-- `Run()` cut after at most `n` Steps (41_execution_cycle.md R136): it goes on while `STATUS = RUNNING`. The bound belongs
to the executor, the machine has none. -/
def runLoop : Nat → State → State
  | 0, s => s
  | n + 1, s =>
    match step s with
    | .next t => runLoop n t
    | .fault _ => s
    | .refused _ => s

/-- The Step function without the loop's guard, with the executed opcode it returns to its caller
(41_execution_cycle.md R130, R137): meaningful in any state with a loaded ROM. -/
def engineStep (s : State) : Instr × Result :=
  (fetch s, exec (fetch s) s)

end Sys2Proof.Machine
end

