-- ==== Sys2Proof/Safety.lean ====
section
/-!
DEFINITION. What counts as the end of a run and as a good one (70_reset_and_hazards.md R224), and the invariant of the machine
(10_state.md R31, R36, R37).
-/
namespace Sys2Proof.Machine

/-- The run has ended (70_reset_and_hazards.md R224). -/
abbrev RunEnded (s : State) : Prop :=
  s.status = .halted ∨ s.status = .faulted ∨ s.status = .loadFailed

/-- The one good end (70_reset_and_hazards.md R224). -/
abbrev GoodEnd (s : State) : Prop :=
  s.status = .halted

/-- What a run can be observed to do (00_scope.md R11): its output trace, its status and its fault. -/
def observation (s : State) : List S64 × Status × Option FaultRecord :=
  (s.outTrace, s.status, s.fault)

/-- The operand names an index of ROM or RAM (41_execution_cycle.md R132). -/
abbrev IndexOk (k : S64) : Prop :=
  0 ≤ k.toInt ∧ k.toInt ≤ 255

/-- The fault an instruction has for an operand out of range, by its opcode (60_exceptions.md R190); none where the operand
is a literal or ignored. -/
def indexCause (i : Instr) : Option FaultCause :=
  match i with
  | .nop _ => none
  | .lda _ => some .ramIndexFault
  | .sta _ => some .ramIndexFault
  | .add _ => some .ramIndexFault
  | .sub _ => some .ramIndexFault
  | .out _ => none
  | .jmp _ => some .jumpTargetFault
  | .jc _ => some .jumpTargetFault
  | .jz _ => some .jumpTargetFault
  | .hlt _ => none
  | .ldi _ => none
  | .adi _ => none
  | .ldr _ => some .romIndexFault
  | .adr _ => some .romIndexFault

/-- The fault an instruction raises where it uses its operand as an index and the operand is out of range
(60_exceptions.md R190); none where the operand is a literal, ignored, or the target of a jump that is not taken
(for the last, log 5). -/
def indexFault (i : Instr) (s : State) : Option FaultCause :=
  match i with
  | .jc _ => if s.carry then indexCause i else none
  | .jz _ => if s.zero then indexCause i else none
  | _ => indexCause i

/-- The instruction is a jump that is taken in `s` (41_execution_cycle.md R138). -/
def takenJump (i : Instr) (s : State) : Bool :=
  decide (indexFault i s = some .jumpTargetFault)

/-- What holds between any two events of a machine that was reset. -/
structure Inv (s : State) : Prop where
  /-- 10_state.md R36 -/
  noJumpPending : s.jp = false
  /-- RAM is in canonical form, all of it at indexes 0 to 255 -/
  ramCanonical : Memory.wf ramDefault Config.ramSize s.ram = true
  /-- ROM is in canonical form, all of it at indexes 0 to 255 -/
  romCanonical : Memory.wf romDefault Config.romSize s.rom = true
  /-- 10_state.md R37 -/
  romEncodable : ∀ c ∈ s.rom, c.2.WellFormed
  /-- 10_state.md R31: no fault is recorded while no fault has happened -/
  faultRecorded : s.fault = none ↔ s.status = .unloaded ∨ s.status = .running ∨ s.status = .halted
  /-- 60_exceptions.md R199, R200: a faulted machine stands on the faulting instruction and names an execution fault of a bad
  index -/
  faultPrecise : s.status = .faulted →
    ∃ c k, s.fault = some ⟨c, k, some s.pc.toNat⟩ ∧ FaultCause.code c ≤ 3 ∧ ¬(0 ≤ k ∧ k ≤ 255)

end Sys2Proof.Machine
end

