-- ==== Sys2Proof/Certificates/Slice0/Obligations.lean ====
section
/-!
DEFINITION. The statements for the provers. Each docstring names the rule of spec/ it formalises. Where a statement has the
premise `s.jp = false`, that is the invariant of 10_state.md R36, stated on its own (`ResetMeetsInvariant`,
`StepKeepsInvariant`); where it has `Memory.wf`, likewise.
-/
open Sys2Proof Sys2Proof.Machine

/-! ### The instructions: result, frame, fault -/

/-- 42_no_operand.md R150. -/
def Obligations.NopOnlyAdvances : Prop :=
  ∀ (k : S64) (s : State), s.jp = false →
    tagOf (.nop k) = 0x00 ∧ exec (.nop k) s = .next { s with pc := s.pc + 1 }

/-- 42_no_operand.md R151. -/
def Obligations.OutEmitsAccumulator : Prop :=
  ∀ (k : S64) (s : State), s.jp = false →
    tagOf (.out k) = 0x05 ∧
    exec (.out k) s = .next { s with outTrace := s.outTrace ++ [s.a], pc := s.pc + 1 }

/-- 42_no_operand.md R152: the control advance runs, then the machine is halted and takes no further Step. -/
def Obligations.HltAdvancesThenHalts : Prop :=
  ∀ (k : S64) (s : State), s.jp = false →
    tagOf (.hlt k) = 0x09 ∧
    exec (.hlt k) s = .next { s with pc := s.pc + 1, status := .halted } ∧
    ¬∃ t, step { s with pc := s.pc + 1, status := .halted } = .next t

/-- 43_load_store.md R160. -/
def Obligations.LdaLoadsCell : Prop :=
  ∀ (k : S64) (s : State), s.jp = false →
    tagOf (.lda k) = 0x01 ∧
    (IndexOk k → exec (.lda k) s = .next { s with a := ramRead s k.toInt.toNat, pc := s.pc + 1 }) ∧
    (¬IndexOk k → exec (.lda k) s =
      .next { s with status := .faulted, fault := some ⟨.ramIndexFault, k.toInt, some s.pc.toNat⟩ })

/-- 43_load_store.md R161, with its frame: the one cell `k` is written, nothing else but `PC`. -/
def Obligations.StaStoresAccumulator : Prop :=
  ∀ (k : S64) (s : State), s.jp = false → Memory.wf ramDefault Config.ramSize s.ram = true →
    tagOf (.sta k) = 0x02 ∧
    (IndexOk k → ∃ t, exec (.sta k) s = .next t ∧ ramRead t k.toInt.toNat = s.a ∧
      (∀ j, j ≠ k.toInt.toNat → ramRead t j = ramRead s j) ∧
      { t with ram := s.ram } = { s with pc := s.pc + 1 }) ∧
    (¬IndexOk k → exec (.sta k) s =
      .next { s with status := .faulted, fault := some ⟨.ramIndexFault, k.toInt, some s.pc.toNat⟩ })

/-- 43_load_store.md R162. -/
def Obligations.LdiLoadsLiteral : Prop :=
  ∀ (v : S64) (s : State), s.jp = false →
    tagOf (.ldi v) = 0x0A ∧ exec (.ldi v) s = .next { s with a := v, pc := s.pc + 1 }

/-- 43_load_store.md R163. -/
def Obligations.LdrLoadsRecordOperand : Prop :=
  ∀ (k : S64) (s : State), s.jp = false →
    tagOf (.ldr k) = 0x0C ∧
    (IndexOk k →
      exec (.ldr k) s = .next { s with a := (romRead s k.toInt.toNat).operand, pc := s.pc + 1 }) ∧
    (¬IndexOk k → exec (.ldr k) s =
      .next { s with status := .faulted, fault := some ⟨.romIndexFault, k.toInt, some s.pc.toNat⟩ })

/-- 44_arithmetic.md R172: the wrapped sum, `CARRY` = signed overflow, `ZERO` = the wrapped sum is 0. -/
def Obligations.AddAddsCell : Prop :=
  ∀ (k : S64) (s : State), s.jp = false →
    tagOf (.add k) = 0x03 ∧
    (IndexOk k → exec (.add k) s = .next { s with
      a := s.a + ramRead s k.toInt.toNat
      carry := BitVec.saddOverflow s.a (ramRead s k.toInt.toNat)
      zero := s.a + ramRead s k.toInt.toNat == 0
      pc := s.pc + 1 }) ∧
    (¬IndexOk k → exec (.add k) s =
      .next { s with status := .faulted, fault := some ⟨.ramIndexFault, k.toInt, some s.pc.toNat⟩ })

/-- 44_arithmetic.md R173: accumulator minus cell, `CARRY` = signed overflow of the exact difference. -/
def Obligations.SubSubtractsCell : Prop :=
  ∀ (k : S64) (s : State), s.jp = false →
    tagOf (.sub k) = 0x04 ∧
    (IndexOk k → exec (.sub k) s = .next { s with
      a := s.a - ramRead s k.toInt.toNat
      carry := BitVec.ssubOverflow s.a (ramRead s k.toInt.toNat)
      zero := s.a == ramRead s k.toInt.toNat
      pc := s.pc + 1 }) ∧
    (¬IndexOk k → exec (.sub k) s =
      .next { s with status := .faulted, fault := some ⟨.ramIndexFault, k.toInt, some s.pc.toNat⟩ })

/-- 44_arithmetic.md R174. -/
def Obligations.AdiAddsLiteral : Prop :=
  ∀ (v : S64) (s : State), s.jp = false →
    tagOf (.adi v) = 0x0B ∧
    exec (.adi v) s = .next { s with
      a := s.a + v
      carry := BitVec.saddOverflow s.a v
      zero := s.a + v == 0
      pc := s.pc + 1 }

/-- 44_arithmetic.md R175. -/
def Obligations.AdrAddsRecordOperand : Prop :=
  ∀ (k : S64) (s : State), s.jp = false →
    tagOf (.adr k) = 0x0D ∧
    (IndexOk k → exec (.adr k) s = .next { s with
      a := s.a + (romRead s k.toInt.toNat).operand
      carry := BitVec.saddOverflow s.a (romRead s k.toInt.toNat).operand
      zero := s.a + (romRead s k.toInt.toNat).operand == 0
      pc := s.pc + 1 }) ∧
    (¬IndexOk k → exec (.adr k) s =
      .next { s with status := .faulted, fault := some ⟨.romIndexFault, k.toInt, some s.pc.toNat⟩ })

/-- 45_control_transfer.md R180: `JR` and `PC` hold the target, `JP` is clear again. It holds whatever `JP` was before. -/
def Obligations.JmpJumpsToTarget : Prop :=
  ∀ (k : S64) (s : State),
    tagOf (.jmp k) = 0x06 ∧
    (IndexOk k → ∃ t : U8, (t.toNat : Int) = k.toInt ∧
      exec (.jmp k) s = .next { s with pc := t, jr := t, jp := false }) ∧
    (¬IndexOk k → exec (.jmp k) s =
      .next { s with status := .faulted, fault := some ⟨.jumpTargetFault, k.toInt, some s.pc.toNat⟩ })

/-- 45_control_transfer.md, `JC`. That an untaken `JC` with an operand outside 0 to 255 completes is the spec's default of a
parameter (92_eei_decisions.md D7, log 5). -/
def Obligations.JcSteersByCarry : Prop :=
  ∀ (k : S64) (s : State), s.jp = false →
    tagOf (.jc k) = 0x07 ∧
    (s.carry = true → IndexOk k → ∃ t : U8, (t.toNat : Int) = k.toInt ∧
      exec (.jc k) s = .next { s with pc := t, jr := t }) ∧
    (s.carry = true → ¬IndexOk k → exec (.jc k) s =
      .next { s with status := .faulted, fault := some ⟨.jumpTargetFault, k.toInt, some s.pc.toNat⟩ }) ∧
    (s.carry = false → exec (.jc k) s = .next { s with pc := s.pc + 1 })

/-- 45_control_transfer.md, `JZ`. That an untaken `JZ` with an operand outside 0 to 255 completes is the spec's default of a
parameter (92_eei_decisions.md D7, log 5). -/
def Obligations.JzSteersByZero : Prop :=
  ∀ (k : S64) (s : State), s.jp = false →
    tagOf (.jz k) = 0x08 ∧
    (s.zero = true → IndexOk k → ∃ t : U8, (t.toNat : Int) = k.toInt ∧
      exec (.jz k) s = .next { s with pc := t, jr := t }) ∧
    (s.zero = true → ¬IndexOk k → exec (.jz k) s =
      .next { s with status := .faulted, fault := some ⟨.jumpTargetFault, k.toInt, some s.pc.toNat⟩ }) ∧
    (s.zero = false → exec (.jz k) s = .next { s with pc := s.pc + 1 })

/-- 45_control_transfer.md R183, for both values of `CHECK_UNTAKEN_JUMP_TARGET` (92_eei_decisions.md D7, log 5). -/
def Obligations.UntakenJumpLooksAtOperandOnlyIfChecked : Prop :=
  ∀ (check : Bool) (k : S64) (s : State), s.jp = false →
    jumpIf check false k s =
      if check = true ∧ ¬IndexOk k then
        .next { s with status := .faulted, fault := some ⟨.jumpTargetFault, k.toInt, some s.pc.toNat⟩ }
      else .next { s with pc := s.pc + 1 }

/-! ### The ALU -/

/-- 44_arithmetic.md R170, with the frame of the ALU call. -/
def Obligations.AluAddIsExactThenWrapped : Prop :=
  ∀ (x : S64) (s : State),
    (∃ q : Int, s.a.toInt + x.toInt = (aluAdd x s).a.toInt + q * 2 ^ 64) ∧
    ((aluAdd x s).carry = true ↔ ¬(-2 ^ 63 ≤ s.a.toInt + x.toInt ∧ s.a.toInt + x.toInt ≤ 2 ^ 63 - 1)) ∧
    ((aluAdd x s).zero = true ↔ (aluAdd x s).a.toInt = 0) ∧
    { aluAdd x s with a := s.a, carry := s.carry, zero := s.zero } = s

/-- 44_arithmetic.md R171, with the frame of the ALU call. -/
def Obligations.AluSubIsExactThenWrapped : Prop :=
  ∀ (x : S64) (s : State),
    (∃ q : Int, s.a.toInt - x.toInt = (aluSub x s).a.toInt + q * 2 ^ 64) ∧
    ((aluSub x s).carry = true ↔ ¬(-2 ^ 63 ≤ s.a.toInt - x.toInt ∧ s.a.toInt - x.toInt ≤ 2 ^ 63 - 1)) ∧
    ((aluSub x s).zero = true ↔ (aluSub x s).a.toInt = 0) ∧
    { aluSub x s with a := s.a, carry := s.carry, zero := s.zero } = s

/-- 44_arithmetic.md, the table of the flag outcomes: which pairs of flags an addition and a subtraction can leave. -/
def Obligations.AluFlagOutcomes : Prop :=
  ∀ (x : S64) (s : State),
    (((aluAdd x s).carry = true ∧ (aluAdd x s).zero = true) ↔
      (s.a.toInt = -2 ^ 63 ∧ x.toInt = -2 ^ 63)) ∧
    ¬((aluSub x s).carry = true ∧ (aluSub x s).zero = true) ∧
    (((aluAdd x s).carry = false ∧ (aluAdd x s).zero = true) ↔ s.a.toInt + x.toInt = 0) ∧
    ((aluSub x s).zero = true ↔ s.a = x)

/-! ### What all instructions have in common -/

/-- 10_state.md, the access matrix, its writes: every field that no listed instruction writes is unchanged. -/
def Obligations.AccessMatrixWrites : Prop :=
  ∀ (i : Instr) (s t : State), exec i s = .next t →
    t.rom = s.rom ∧
    ((∀ k, i ≠ .sta k) → ∀ j, ramRead t j = ramRead s j) ∧
    ((∀ k, i ≠ .out k) → t.outTrace = s.outTrace) ∧
    ((∀ k, i ≠ .lda k) → (∀ k, i ≠ .ldi k) → (∀ k, i ≠ .ldr k) → (∀ k, i ≠ .add k) → (∀ k, i ≠ .sub k) →
      (∀ k, i ≠ .adi k) → (∀ k, i ≠ .adr k) → t.a = s.a) ∧
    ((∀ k, i ≠ .add k) → (∀ k, i ≠ .sub k) → (∀ k, i ≠ .adi k) → (∀ k, i ≠ .adr k) →
      t.carry = s.carry ∧ t.zero = s.zero) ∧
    (takenJump i s = false → t.jr = s.jr) ∧
    ((∀ k, i ≠ .hlt k) → t.status = .faulted ∨ t.status = s.status) ∧
    (t.status = .faulted ∨ t.fault = s.fault)

/-- 10_state.md R24 and R25, their reading side: `CARRY` is read only by `JC`, `ZERO` only by `JZ`. -/
def Obligations.FlagsAreReadOnlyByTheirJump : Prop :=
  ∀ (i : Instr) (s : State) (b : Bool),
    ((∀ k, i ≠ .jc k) → ∃ t u, exec i s = .next t ∧ exec i { s with carry := b } = .next u ∧
      { u with carry := t.carry } = t) ∧
    ((∀ k, i ≠ .jz k) → ∃ t u, exec i s = .next t ∧ exec i { s with zero := b } = .next u ∧
      { u with zero := t.zero } = t)

/-- 10_state.md R23 and R33: between Steps no later behaviour depends on the value left in `JR`. -/
def Obligations.StaleJumpRegisterIsNeverRead : Prop :=
  ∀ (i : Instr) (s : State) (j : U8), s.jp = false →
    ∃ t u, exec i s = .next t ∧ exec i { s with jr := j } = .next u ∧ { u with jr := t.jr } = t

/-- 10_state.md R31 and R32: no instruction reads `FAULT` or `OUT_TRACE`. -/
def Obligations.FaultAndTraceAreNeverRead : Prop :=
  ∀ (i : Instr) (s : State) (f : Option FaultRecord) (o : List S64),
    ∃ t u, exec i s = .next t ∧ exec i { s with fault := f, outTrace := o } = .next u ∧
      { u with fault := t.fault, outTrace := t.outTrace } = t

/-- 41_execution_cycle.md R135: a faulting Step changes nothing but `STATUS` and `FAULT`, and no further Step is taken. -/
def Obligations.FaultingStepIsPrecise : Prop :=
  ∀ (s t : State), step s = .next t → t.status = .faulted →
    (∃ c, indexCause (fetch s) = some c ∧
      t = { s with status := .faulted, fault := some ⟨c, (fetch s).operand.toInt, some s.pc.toNat⟩ }) ∧
    ¬IndexOk (fetch s).operand ∧
    ¬∃ u, step t = .next u

/-- 10_state.md R36 and 41_execution_cycle.md R133, R138, as seen from outside: where `PC` goes in a Step that does not
fault. -/
def Obligations.ControlAdvanceSeenFromOutside : Prop :=
  ∀ (s t : State), s.jp = false → step s = .next t → t.status ≠ .faulted →
    t.jp = false ∧
    (takenJump (fetch s) s = true → t.pc = t.jr ∧ (t.pc.toNat : Int) = (fetch s).operand.toInt) ∧
    (takenJump (fetch s) s = false → t.pc.toNat = (s.pc.toNat + 1) % 256 ∧ t.jr = s.jr)

/-- 41_execution_cycle.md R134 and 10_state.md R30: what `STATUS` is after a Step. -/
def Obligations.StatusAfterAStep : Prop :=
  ∀ (s t : State), step s = .next t →
    (t.status = .running ∨ t.status = .halted ∨ t.status = .faulted) ∧
    (t.status = .halted ↔ ∃ k, fetch s = .hlt k)

/-- 10_state.md R30, 41_execution_cycle.md R131: a Step is taken exactly while the machine is running, and then it always
completes (no record stops it; a bad index is a recorded fault, a next state). -/
def Obligations.StepIsTakenExactlyWhileRunning : Prop :=
  ∀ s : State, (∃ t, step s = .next t) ↔ s.status = .running

/-! ### Fetch and run -/

/-- 41_execution_cycle.md R131: the Step of a running machine is the execution of the record at `PC`. -/
def Obligations.StepRunsTheRecordAtPc : Prop :=
  ∀ s : State, s.status = .running → step s = exec (romRead s s.pc.toNat) s

/-- A Step runs the decoded instruction: when the 8 bytes of the loaded image at record `PC` decode to `i`, the Step of any
later state of that run (same ROM) is the execution of `i` (41_execution_cycle.md R131, 40_codec_operations.md R113). -/
def Obligations.StepRunsTheDecodedBytes : Prop :=
  ∀ (bytes rest : List Byte) (s t u : State) (i : Instr),
    loadImage bytes s = .next t → t.status = .running → u.rom = t.rom → u.status = .running →
    decode (bytes.drop (8 * u.pc.toNat)) = .ok (i, rest) →
    i.WellFormed ∧ fetch u = i ∧ step u = exec i u

/-- The record that `withFetchWord` places is the one the next Step runs; nothing but ROM and `STATUS` is changed
(log 19). -/
def Obligations.PlacedWordRunsNext : Prop :=
  ∀ (nbits w : Nat) (i : Instr) (s : State), Memory.wf romDefault Config.romSize s.rom = true →
    decodeTableWord nbits w = some i →
    step (s.withFetchWord nbits w) = exec i (s.withFetchWord nbits w) ∧
    { s.withFetchWord nbits w with rom := s.rom, status := s.status } = s

/-- 41_execution_cycle.md R136: while `STATUS = RUNNING` the loop takes a Step, which always completes, and goes on from the
state it leaves; else it stays put. -/
def Obligations.RunLoopStepsWhileRunning : Prop :=
  ∀ (n : Nat) (s : State),
    (s.status = .running → ∃ t, step s = .next t ∧ runLoop (n + 1) s = runLoop n t) ∧
    (s.status ≠ .running → runLoop (n + 1) s = s)

/-- 60_exceptions.md R201 and 41_execution_cycle.md R134: a run that has ended stays as it is. -/
def Obligations.EndedRunIsFrozen : Prop :=
  ∀ (n : Nat) (s : State), RunEnded s → runLoop n s = s

/-- 10_state.md R29 and R32 along a whole run: the ROM never changes, and the output trace only grows at its end, by at most
one value a Step. -/
def Obligations.RunKeepsRomAndExtendsTrace : Prop :=
  ∀ (n : Nat) (s : State), (runLoop n s).rom = s.rom ∧
    ∃ vs : List S64, (runLoop n s).outTrace = s.outTrace ++ vs ∧ vs.length ≤ n

/-! ### Reset, load, invariant -/

/-- 10_state.md R35, for every value of the four parameters the spec leaves to the model. The parameters' own values are the
model's choice (log 1). -/
def Obligations.ResetLeavesTheStatedValues : Prop :=
  (∀ v : Config.ResetValues,
    (∀ k, ramRead (State.resetWith v) k = 0) ∧ (State.resetWith v).pc = 0 ∧ (State.resetWith v).jp = false ∧
    (State.resetWith v).status = .unloaded ∧ (State.resetWith v).fault = none ∧
    (State.resetWith v).outTrace = [] ∧ (State.resetWith v).a = v.a ∧ (State.resetWith v).jr = v.jr ∧
    (State.resetWith v).carry = v.carry ∧ (State.resetWith v).zero = v.zero) ∧
  State.reset = State.resetWith Config.resetValues

/-- The invariant holds after reset, whatever the four parameters. -/
def Obligations.ResetMeetsInvariant : Prop :=
  ∀ v : Config.ResetValues, Inv (State.resetWith v)

/-- Every Step keeps the invariant: `JP` clear (10_state.md R36), both memories canonical, every ROM record encodable (R37),
`FAULT` recorded exactly when a fault happened and precisely (R31, 60_exceptions.md R199, R200). -/
def Obligations.StepKeepsInvariant : Prop :=
  ∀ s t : State, Inv s → step s = .next t → Inv t

/-- LOADIMAGE keeps the invariant, also where the load fails. -/
def Obligations.LoadKeepsInvariant : Prop :=
  ∀ (bytes : List Byte) (s t : State), Inv s → loadImage bytes s = .next t → Inv t

/-- Every state of every run (reset in any state, one load of any bytes, any number of Steps) meets the invariant. -/
def Obligations.EveryRunMeetsInvariant : Prop :=
  ∀ (bytes : List Byte) (n : Nat) (s t : State), boot bytes s = .next t → Inv (runLoop n t)

/-- 40_codec_operations.md R113, R115: a load that meets the loader's conditions builds all 256 records, pads with
`(HLT, 0)`, starts the machine and touches nothing else. -/
def Obligations.LoadBuildsTheRom : Prop :=
  ∀ (bytes : List Byte) (s : State), s.status = .unloaded → bytes.length % 8 = 0 → bytes.length ≤ 2048 →
    (∀ k b, bytes[8 * k]? = some b → b.toNat ≤ 13) →
    ∃ t, loadImage bytes s = .next t ∧ t.status = .running ∧
      { t with rom := s.rom, status := s.status } = s ∧
      (∀ k, 8 * k < bytes.length →
        decode (bytes.drop (8 * k)) = .ok (romRead t k, bytes.drop (8 * k + 8))) ∧
      (∀ k, bytes.length ≤ 8 * k → romRead t k = .hlt 0)

/-- 40_codec_operations.md R114, 60_exceptions.md R194, R195: which load fault is reported, and that a failing load writes
`STATUS` and `FAULT` only. -/
def Obligations.LoadFaultsInOrder : Prop :=
  ∀ (bytes : List Byte) (s : State), s.status = .unloaded →
    (bytes.length % 8 ≠ 0 → loadImage bytes s = .next { s with
      status := .loadFailed, fault := some ⟨.imageLengthFault, bytes.length, none⟩ }) ∧
    (bytes.length % 8 = 0 → 256 < bytes.length / 8 → loadImage bytes s = .next { s with
      status := .loadFailed, fault := some ⟨.imageTooLongFault, (bytes.length / 8 : Nat), none⟩ }) ∧
    (bytes.length % 8 = 0 → bytes.length / 8 ≤ 256 →
      ∀ k b, bytes[8 * k]? = some b → 13 < b.toNat →
        (∀ j c, j < k → bytes[8 * j]? = some c → c.toNat ≤ 13) →
        loadImage bytes s = .next { s with
          status := .loadFailed, fault := some ⟨.unknownOpcodeFault, b.toNat, some k⟩ })

/-- 70_reset_and_hazards.md R221 leaves a second load undefined; the model refuses it (92_eei_decisions.md D26, log 11). -/
def Obligations.LoadWithoutResetIsRefused : Prop :=
  ∀ (bytes : List Byte) (s : State), s.status ≠ .unloaded → loadImage bytes s = .refused .loadWithoutReset

/-- 20_memory.md R51: RAM reads back what was written last, 0 where nothing was, and a write changes its cell only. -/
def Obligations.RamReadsBackTheLastWrite : Prop :=
  (∀ (k : Nat) (v : S64) (s : State), Memory.wf ramDefault Config.ramSize s.ram = true → k ≤ 255 →
    ramRead (ramWrite k v s) k = v ∧
    (∀ j, j ≠ k → ramRead (ramWrite k v s) j = ramRead s j) ∧
    { ramWrite k v s with ram := s.ram } = s) ∧
  ∀ (v : Config.ResetValues) (k : Nat), ramRead (State.resetWith v) k = 0

/-! ### The codec -/

/-- Decode and encode agree, for all 14 opcodes and every operand the encoding admits, and back: for all 8 bytes with a valid
tag (40_codec_operations.md, the section of R112). -/
def Obligations.DecodeEncodeRoundTrip : Prop :=
  (∀ i : Instr, i.WellFormed → ∃ bs, encode i = .ok bs ∧ bs.length = 8 ∧ decode bs = .ok (i, [])) ∧
  ∀ b0 b1 b2 b3 b4 b5 b6 b7 : Byte, b0.toNat ≤ 13 →
    ∃ i : Instr, decode [b0, b1, b2, b3, b4, b5, b6, b7] = .ok (i, []) ∧ i.WellFormed ∧
      encode i = .ok [b0, b1, b2, b3, b4, b5, b6, b7]

/-- 40_codec_operations.md R110: the tag byte, then the low 56 bits of the two's-complement operand, most significant byte
first; or the error. That a bad tag is reported before a bad operand is the model's reading (log 12). -/
def Obligations.EncodePacksTagAndOperand : Prop :=
  ∀ (t : Byte) (v : S64),
    (t.toNat ≤ 13 → -2 ^ 55 ≤ v.toInt → v.toInt ≤ 2 ^ 55 - 1 →
      ∃ b1 b2 b3 b4 b5 b6 b7 : Byte, pack t v = .ok [t, b1, b2, b3, b4, b5, b6, b7] ∧
        ((b1.toNat * 2 ^ 48 + b2.toNat * 2 ^ 40 + b3.toNat * 2 ^ 32 + b4.toNat * 2 ^ 24 +
          b5.toNat * 2 ^ 16 + b6.toNat * 2 ^ 8 + b7.toNat : Nat) : Int) = v.toInt % 2 ^ 56) ∧
    (t.toNat ≤ 13 → (v.toInt < -2 ^ 55 ∨ 2 ^ 55 - 1 < v.toInt) → pack t v = .error (.operandRange v)) ∧
    (13 < t.toNat → pack t v = .error (.unknownOpcode t)) ∧
    ∀ i : Instr, encode i = pack (tagOf i) i.operand

/-- 40_codec_operations.md R111 and 30_encoding.md R82: the tag is byte 0, the operand the big-endian 56-bit field
sign-extended; a tag above 13 is the one error. -/
def Obligations.DecodeReadsTagAndOperand : Prop :=
  ∀ b0 b1 b2 b3 b4 b5 b6 b7 : Byte, ∀ u : Nat,
    u = b1.toNat * 2 ^ 48 + b2.toNat * 2 ^ 40 + b3.toNat * 2 ^ 32 + b4.toNat * 2 ^ 24 +
      b5.toNat * 2 ^ 16 + b6.toNat * 2 ^ 8 + b7.toNat →
    (13 < b0.toNat → decode [b0, b1, b2, b3, b4, b5, b6, b7] = .error (.unknownOpcode b0)) ∧
    (b0.toNat ≤ 13 → ∃ i : Instr, decode [b0, b1, b2, b3, b4, b5, b6, b7] = .ok (i, []) ∧ tagOf i = b0 ∧
      i.operand.toInt = if u < 2 ^ 55 then (u : Int) else (u : Int) - 2 ^ 56)

/-- The opcode table's own numbering: the record word is the tag times `2^56` plus the operand modulo `2^56`
(30_encoding.md R81, R82, 00_scope.md R7). -/
def Obligations.TableWordDecodes : Prop :=
  ∀ i : Instr, i.WellFormed →
    decodeTableWord 64 ((tagOf i).toNat * 2 ^ 56 + (i.operand.toInt % 2 ^ 56).toNat) = some i

/-- Words written out from 30_encoding.md R81 and R83, one per family (95_test_vectors.md E17, E19, E15, E27, E29, E31). -/
def Obligations.SampleWordsDecode : Prop :=
  decode [0x01, 0x00, 0x00, 0x00, 0x00, 0x00, 0x00, 0xFF] = .ok (.lda 255, []) ∧
  decode [0x0A, 0x01, 0x23, 0x45, 0x67, 0x89, 0xAB, 0xCD] = .ok (.ldi 320255973501901, []) ∧
  decode [0x0B, 0xFF, 0xFF, 0xFF, 0xFF, 0xFF, 0xFF, 0xFE] = .ok (.adi (.ofInt 64 (-2)), []) ∧
  decode [0x08, 0xFF, 0xFF, 0xFF, 0xFF, 0xFF, 0xFF, 0xF9] = .ok (.jz (.ofInt 64 (-7)), []) ∧
  decode [0x09, 0xFF, 0xFF, 0xFF, 0xFF, 0xFF, 0xFF, 0xFF] = .ok (.hlt (.ofInt 64 (-1)), []) ∧
  decode [0x0E, 0x00, 0x00, 0x00, 0x00, 0x00, 0x00, 0x00] = .error (.unknownOpcode 14)

/-- 40_codec_operations.md R116: the encodings in order, 8 bytes each, without padding; or the first error and no bytes. -/
def Obligations.SerializeConcatenatesEncodings : Prop :=
  (∀ p : List Instr, (∀ i ∈ p, i.WellFormed) →
    ∃ bs, serialize p = .ok bs ∧ bs.length = 8 * p.length ∧
      ∀ k i, p[k]? = some i → encode i = .ok ((bs.drop (8 * k)).take 8)) ∧
  ∀ (p q : List Instr) (i : Instr), (∀ j ∈ p, j.WellFormed) → ¬i.WellFormed →
    serialize (p ++ i :: q) = .error (.operandRange i.operand)

/-- SERIALIZE then LOADIMAGE gives the records back, padded with `(HLT, 0)` (40_codec_operations.md, the section of R117). -/
def Obligations.SerializeThenLoadRoundTrip : Prop :=
  ∀ (p : List Instr) (s : State), s.status = .unloaded → p.length ≤ 256 → (∀ i ∈ p, i.WellFormed) →
    ∃ bs t, serialize p = .ok bs ∧ loadImage bs s = .next t ∧ t.status = .running ∧
      ∀ k, romRead t k = (p[k]?).getD (.hlt 0)

/-! ### The assembler's notation -/

/-- ParseLine reads back the canonical text of every record that has one (30_encoding.md R90, R91, R98). -/
def Obligations.CanonicalTextParses : Prop :=
  ∀ i : Instr, (takesOperand (tagOf i) = true ∨ i.operand = 0) → parseLine (disassemble i) = .ok i

/-- Assemble is ParseLine on every line, in order, all or nothing (30_encoding.md R94). -/
def Obligations.AssembleIsLineByLine : Prop :=
  ∀ (text : List Char) (p : List Instr), trimText text ≠ [] →
    (assemble text = .ok p ↔
      List.Forall₂ (fun l i => parseLine l = .ok i) (splitLines [] (trimText text)) p)
end

