-- ==== Sys2Proof/Laws/Codec.lean ====
section
/-!
SUPPORT. The opcode map and the operand field, one small lemma per function of the codec.
-/
namespace Sys2Proof

/-- Every tag is one of the 14 (30_encoding.md R83). -/
theorem tagOf_le (i : Instr) : (tagOf i).toNat ≤ 13 := by
  cases i <;> simp [tagOf]

/-- What `ofTag` gives has that tag and that operand. -/
theorem ofTag_some {t : Byte} {v : S64} {i : Instr} (h : ofTag t v = some i) :
    tagOf i = t ∧ i.operand = v := by
  have key : ∀ n, t.toNat = n → n < 2 ^ 8 → BitVec.ofNat 8 n = t := by
    intro n hn _; subst hn; simp
  unfold ofTag at h
  split at h <;> first
    | (next ht => cases h; exact ⟨key _ ht (by decide), rfl⟩)
    | exact absurd h (by simp)

/-- The illegal tags are those above 13 (30_encoding.md R85). -/
theorem ofTag_eq_none_iff (t : Byte) (v : S64) : ofTag t v = none ↔ 13 < t.toNat := by
  constructor
  · intro h
    by_contra hle
    have hlt : t.toNat < 14 := by omega
    interval_cases n : t.toNat <;> simp [ofTag, n] at h
  · intro h
    unfold ofTag
    split <;> first
      | (next ht => omega)
      | rfl

/-- The operand field in numbers (30_encoding.md R82). -/
theorem operandField_toNat (b1 b2 b3 b4 b5 b6 b7 : Byte) :
    (operandField b1 b2 b3 b4 b5 b6 b7).toNat =
      b1.toNat * 2 ^ 48 + b2.toNat * 2 ^ 40 + b3.toNat * 2 ^ 32 + b4.toNat * 2 ^ 24 +
        b5.toNat * 2 ^ 16 + b6.toNat * 2 ^ 8 + b7.toNat := by
  have app : ∀ (n : Nat) (x : BitVec n) (y : Byte), (x ++ y).toNat = x.toNat * 2 ^ 8 + y.toNat := by
    intro n x y
    rw [BitVec.toNat_append, ← Nat.shiftLeft_add_eq_or_of_lt y.isLt, Nat.shiftLeft_eq]
  simp only [operandField, app]
  omega

/-- Sign extension in numbers (00_scope.md R8). -/
theorem sext56_toInt (u : BitVec 56) :
    (sext56 u).toInt = if u.toNat < 2 ^ 55 then (u.toNat : Int) else (u.toNat : Int) - 2 ^ 56 := by
  rw [sext56, BitVec.toInt_signExtend_of_le (by decide), BitVec.toInt_eq_toNat_cond]
  have := u.isLt
  split <;> split <;> first | rfl | omega

/-- Every decoded operand fits the field again (40_codec_operations.md R112). -/
theorem sext56_fits (u : BitVec 56) : OperandFits (sext56 u) := by
  have h := sext56_toInt u
  have := u.isLt
  unfold OperandFits Config.operandMin Config.operandMax
  split at h <;> omega

/-- The decoder on a record whose tag is valid. -/
theorem decodeRecord_ok {b0 b1 b2 b3 b4 b5 b6 b7 : Byte} {i : Instr}
    (h : decodeRecord b0 b1 b2 b3 b4 b5 b6 b7 = .ok i) :
    tagOf i = b0 ∧ i.operand = sext56 (operandField b1 b2 b3 b4 b5 b6 b7) ∧ i.WellFormed := by
  unfold decodeRecord at h
  split at h
  · next i' hi =>
    cases h
    obtain ⟨h1, h2⟩ := ofTag_some hi
    exact ⟨h1, h2, by unfold Instr.WellFormed; rw [h2]; exact sext56_fits _⟩
  · cases h

end Sys2Proof
end

