-- ==== Sys2Proof/Laws/State.lean ====
section
/-!
SUPPORT. One lemma per field and update of State, so that no later proof unfolds a record update.
-/
namespace Sys2Proof.Machine

@[simp] theorem setA_a (v : S64) (s : State) : (setA v s).a = v := rfl
@[simp] theorem setA_pc (v : S64) (s : State) : (setA v s).pc = s.pc := rfl
@[simp] theorem setA_jr (v : S64) (s : State) : (setA v s).jr = s.jr := rfl
@[simp] theorem setA_carry (v : S64) (s : State) : (setA v s).carry = s.carry := rfl
@[simp] theorem setA_zero (v : S64) (s : State) : (setA v s).zero = s.zero := rfl
@[simp] theorem setA_jp (v : S64) (s : State) : (setA v s).jp = s.jp := rfl
@[simp] theorem setA_ram (v : S64) (s : State) : (setA v s).ram = s.ram := rfl
@[simp] theorem setA_rom (v : S64) (s : State) : (setA v s).rom = s.rom := rfl
@[simp] theorem setA_status (v : S64) (s : State) : (setA v s).status = s.status := rfl
@[simp] theorem setA_fault (v : S64) (s : State) : (setA v s).fault = s.fault := rfl
@[simp] theorem setA_outTrace (v : S64) (s : State) : (setA v s).outTrace = s.outTrace := rfl

@[simp] theorem emitA_a (s : State) : (emitA s).a = s.a := rfl
@[simp] theorem emitA_pc (s : State) : (emitA s).pc = s.pc := rfl
@[simp] theorem emitA_jr (s : State) : (emitA s).jr = s.jr := rfl
@[simp] theorem emitA_carry (s : State) : (emitA s).carry = s.carry := rfl
@[simp] theorem emitA_zero (s : State) : (emitA s).zero = s.zero := rfl
@[simp] theorem emitA_jp (s : State) : (emitA s).jp = s.jp := rfl
@[simp] theorem emitA_ram (s : State) : (emitA s).ram = s.ram := rfl
@[simp] theorem emitA_rom (s : State) : (emitA s).rom = s.rom := rfl
@[simp] theorem emitA_status (s : State) : (emitA s).status = s.status := rfl
@[simp] theorem emitA_fault (s : State) : (emitA s).fault = s.fault := rfl
@[simp] theorem emitA_outTrace (s : State) : (emitA s).outTrace = s.outTrace ++ [s.a] := rfl

@[simp] theorem requestJump_a (t : Nat) (s : State) : (requestJump t s).a = s.a := rfl
@[simp] theorem requestJump_pc (t : Nat) (s : State) : (requestJump t s).pc = s.pc := rfl
@[simp] theorem requestJump_jr (t : Nat) (s : State) : (requestJump t s).jr = BitVec.ofNat 8 t := rfl
@[simp] theorem requestJump_carry (t : Nat) (s : State) : (requestJump t s).carry = s.carry := rfl
@[simp] theorem requestJump_zero (t : Nat) (s : State) : (requestJump t s).zero = s.zero := rfl
@[simp] theorem requestJump_jp (t : Nat) (s : State) : (requestJump t s).jp = true := rfl
@[simp] theorem requestJump_ram (t : Nat) (s : State) : (requestJump t s).ram = s.ram := rfl
@[simp] theorem requestJump_rom (t : Nat) (s : State) : (requestJump t s).rom = s.rom := rfl
@[simp] theorem requestJump_status (t : Nat) (s : State) : (requestJump t s).status = s.status := rfl
@[simp] theorem requestJump_fault (t : Nat) (s : State) : (requestJump t s).fault = s.fault := rfl
@[simp] theorem requestJump_outTrace (t : Nat) (s : State) : (requestJump t s).outTrace = s.outTrace := rfl

@[simp] theorem ramWrite_a (k : Nat) (v : S64) (s : State) : (ramWrite k v s).a = s.a := rfl
@[simp] theorem ramWrite_pc (k : Nat) (v : S64) (s : State) : (ramWrite k v s).pc = s.pc := rfl
@[simp] theorem ramWrite_jr (k : Nat) (v : S64) (s : State) : (ramWrite k v s).jr = s.jr := rfl
@[simp] theorem ramWrite_carry (k : Nat) (v : S64) (s : State) : (ramWrite k v s).carry = s.carry := rfl
@[simp] theorem ramWrite_zero (k : Nat) (v : S64) (s : State) : (ramWrite k v s).zero = s.zero := rfl
@[simp] theorem ramWrite_jp (k : Nat) (v : S64) (s : State) : (ramWrite k v s).jp = s.jp := rfl
@[simp] theorem ramWrite_ram (k : Nat) (v : S64) (s : State) : (ramWrite k v s).ram = Memory.write ramDefault s.ram k v := rfl
@[simp] theorem ramWrite_rom (k : Nat) (v : S64) (s : State) : (ramWrite k v s).rom = s.rom := rfl
@[simp] theorem ramWrite_status (k : Nat) (v : S64) (s : State) : (ramWrite k v s).status = s.status := rfl
@[simp] theorem ramWrite_fault (k : Nat) (v : S64) (s : State) : (ramWrite k v s).fault = s.fault := rfl
@[simp] theorem ramWrite_outTrace (k : Nat) (v : S64) (s : State) : (ramWrite k v s).outTrace = s.outTrace := rfl

@[simp] theorem aluResult_a (z : Int) (s : State) : (aluResult z s).a = wrap64 z := rfl
@[simp] theorem aluResult_pc (z : Int) (s : State) : (aluResult z s).pc = s.pc := rfl
@[simp] theorem aluResult_jr (z : Int) (s : State) : (aluResult z s).jr = s.jr := rfl
@[simp] theorem aluResult_carry (z : Int) (s : State) : (aluResult z s).carry = !fits64 z := rfl
@[simp] theorem aluResult_zero (z : Int) (s : State) : (aluResult z s).zero = (wrap64 z == 0) := rfl
@[simp] theorem aluResult_jp (z : Int) (s : State) : (aluResult z s).jp = s.jp := rfl
@[simp] theorem aluResult_ram (z : Int) (s : State) : (aluResult z s).ram = s.ram := rfl
@[simp] theorem aluResult_rom (z : Int) (s : State) : (aluResult z s).rom = s.rom := rfl
@[simp] theorem aluResult_status (z : Int) (s : State) : (aluResult z s).status = s.status := rfl
@[simp] theorem aluResult_fault (z : Int) (s : State) : (aluResult z s).fault = s.fault := rfl
@[simp] theorem aluResult_outTrace (z : Int) (s : State) : (aluResult z s).outTrace = s.outTrace := rfl

@[simp] theorem controlAdvance_a (s : State) : (controlAdvance s).a = s.a := by
  unfold controlAdvance; split <;> rfl
@[simp] theorem controlAdvance_jr (s : State) : (controlAdvance s).jr = s.jr := by
  unfold controlAdvance; split <;> rfl
@[simp] theorem controlAdvance_carry (s : State) : (controlAdvance s).carry = s.carry := by
  unfold controlAdvance; split <;> rfl
@[simp] theorem controlAdvance_zero (s : State) : (controlAdvance s).zero = s.zero := by
  unfold controlAdvance; split <;> rfl
@[simp] theorem controlAdvance_ram (s : State) : (controlAdvance s).ram = s.ram := by
  unfold controlAdvance; split <;> rfl
@[simp] theorem controlAdvance_rom (s : State) : (controlAdvance s).rom = s.rom := by
  unfold controlAdvance; split <;> rfl
@[simp] theorem controlAdvance_status (s : State) : (controlAdvance s).status = s.status := by
  unfold controlAdvance; split <;> rfl
@[simp] theorem controlAdvance_fault (s : State) : (controlAdvance s).fault = s.fault := by
  unfold controlAdvance; split <;> rfl
@[simp] theorem controlAdvance_outTrace (s : State) : (controlAdvance s).outTrace = s.outTrace := by
  unfold controlAdvance; split <;> rfl

/-- After any control advance no jump is pending (10_state.md R26). -/
@[simp] theorem controlAdvance_jp (s : State) : (controlAdvance s).jp = false := by
  cases h : s.jp <;> simp [controlAdvance, h]

/-- Where `PC` goes (41_execution_cycle.md R133). -/
@[simp] theorem controlAdvance_pc (s : State) :
    (controlAdvance s).pc = if s.jp then s.jr else s.pc + 1 := by
  unfold controlAdvance; split <;> rfl

/-- The control advance where no jump was requested. -/
theorem controlAdvance_of_not_pending {s : State} (h : s.jp = false) :
    controlAdvance s = { s with pc := s.pc + 1 } := by
  simp [controlAdvance, h]

/-- The control advance after a jump request. -/
theorem controlAdvance_requestJump (t : Nat) (s : State) :
    controlAdvance (requestJump t s) = { s with pc := .ofNat 8 t, jr := .ofNat 8 t, jp := false } := rfl

@[simp] theorem resetWith_a (v : Config.ResetValues) : (State.resetWith v).a = v.a := rfl
@[simp] theorem resetWith_pc (v : Config.ResetValues) : (State.resetWith v).pc = 0 := rfl
@[simp] theorem resetWith_jr (v : Config.ResetValues) : (State.resetWith v).jr = v.jr := rfl
@[simp] theorem resetWith_carry (v : Config.ResetValues) : (State.resetWith v).carry = v.carry := rfl
@[simp] theorem resetWith_zero (v : Config.ResetValues) : (State.resetWith v).zero = v.zero := rfl
@[simp] theorem resetWith_jp (v : Config.ResetValues) : (State.resetWith v).jp = false := rfl
@[simp] theorem resetWith_ram (v : Config.ResetValues) : (State.resetWith v).ram = [] := rfl
@[simp] theorem resetWith_rom (v : Config.ResetValues) : (State.resetWith v).rom = [] := rfl
@[simp] theorem resetWith_status (v : Config.ResetValues) : (State.resetWith v).status = .unloaded := rfl
@[simp] theorem resetWith_fault (v : Config.ResetValues) : (State.resetWith v).fault = none := rfl
@[simp] theorem resetWith_outTrace (v : Config.ResetValues) : (State.resetWith v).outTrace = [] := rfl

end Sys2Proof.Machine
end

