-- ==== Sys2Proof/Laws/Memory.lean ====
section
/-!
SUPPORT. The laws of the canonical memory: reading, writing, and that every memory operation keeps the canonical form.
-/
namespace Sys2Proof.Machine

variable {β : Type} [DecidableEq β] {d : β} {size : Nat}

omit [DecidableEq β] in
@[simp] theorem Memory.read_nil (d : β) (k : Nat) : Memory.read d [] k = d := rfl

@[simp] theorem Memory.wf_nil : Memory.wf d size ([] : Memory β) = true := rfl

/-- The canonical form of a non-empty memory, as a proposition. -/
theorem Memory.wf_cons_iff (j : Nat) (v : β) (m : Memory β) :
    Memory.wf d size ((j, v) :: m) = true ↔
      j < size ∧ v ≠ d ∧ (∀ c ∈ m, j < c.1) ∧ Memory.wf d size m = true := by
  simp [Memory.wf, List.all_eq_true, and_assoc]

omit [DecidableEq β] in
/-- An index below every listed one reads the default. -/
theorem Memory.read_of_forall_lt (d : β) (m : Memory β) (k : Nat) (h : ∀ c ∈ m, k < c.1) :
    Memory.read d m k = d := by
  induction m with
  | nil => rfl
  | cons c m ih =>
    obtain ⟨j, v⟩ := c
    have hk : k < j := h (j, v) (by simp)
    have hne : j ≠ k := by omega
    simpa [Memory.read, hne] using ih fun c hc => h c (by simp [hc])

/-- An entry after a write was there before or is the one written. -/
theorem Memory.mem_write {m : Memory β} {k : Nat} {v : β} {c : Nat × β}
    (h : c ∈ Memory.write d m k v) : c ∈ m ∨ c = (k, v) := by
  induction m with
  | nil =>
    by_cases hv : v = d <;> simp [Memory.write, hv] at h
    exact .inr h
  | cons e m ih =>
    obtain ⟨j, w⟩ := e
    simp only [Memory.write] at h
    split at h
    · split at h
      · exact .inl h
      · simp only [List.mem_cons] at h ⊢; tauto
    · split at h
      · split at h
        · exact .inl (List.mem_cons_of_mem _ h)
        · simp only [List.mem_cons] at h ⊢; tauto
      · simp only [List.mem_cons] at h ⊢
        rcases h with h | h
        · exact .inl (.inl h)
        · exact (ih h).elim (fun h => .inl (.inr h)) .inr

/-- A write inside the space keeps the canonical form. -/
theorem Memory.wf_write {m : Memory β} {k : Nat} {v : β} (hk : k < size)
    (h : Memory.wf d size m = true) : Memory.wf d size (Memory.write d m k v) = true := by
  induction m with
  | nil => by_cases hv : v = d <;> simp [Memory.write, Memory.wf, hv, hk]
  | cons e m ih =>
    obtain ⟨j, w⟩ := e
    have hcons := h
    rw [Memory.wf_cons_iff] at h
    obtain ⟨hj, hw, hm, hwf⟩ := h
    simp only [Memory.write]
    split
    · next hkj =>
      split
      · exact hcons
      · next hv =>
        rw [Memory.wf_cons_iff]
        refine ⟨hk, hv, ?_, hcons⟩
        intro c hc
        rcases List.mem_cons.mp hc with rfl | hc
        · exact hkj
        · exact hkj.trans (hm c hc)
    · next hkj =>
      split
      · next hkeq =>
        subst hkeq
        split
        · exact hwf
        · next hv => exact (Memory.wf_cons_iff k v m).mpr ⟨hj, hv, hm, hwf⟩
      · next hkne =>
        rw [Memory.wf_cons_iff]
        refine ⟨hj, hw, ?_, ih hwf⟩
        intro c hc
        rcases Memory.mem_write hc with hc | rfl
        · exact hm c hc
        · show j < k
          omega

/-- The index written reads the value written. -/
theorem Memory.read_write_same {m : Memory β} {k : Nat} {v : β} (h : Memory.wf d size m = true) :
    Memory.read d (Memory.write d m k v) k = v := by
  induction m with
  | nil => by_cases hv : v = d <;> simp [Memory.write, Memory.read, hv]
  | cons e m ih =>
    obtain ⟨j, w⟩ := e
    rw [Memory.wf_cons_iff] at h
    obtain ⟨-, -, hm, hwf⟩ := h
    simp only [Memory.write]
    split
    · next hkj =>
      split
      · next hv =>
        subst hv
        exact Memory.read_of_forall_lt _ _ _ fun c hc => by
          rcases List.mem_cons.mp hc with rfl | hc
          · exact hkj
          · exact hkj.trans (hm c hc)
      · simp [Memory.read]
    · split
      · next hkeq =>
        subst hkeq
        split
        · next hv => subst hv; exact Memory.read_of_forall_lt _ _ _ hm
        · simp [Memory.read]
      · next hkne => simpa [Memory.read, Ne.symm hkne] using ih hwf

/-- Every other index reads as before. -/
theorem Memory.read_write_other {m : Memory β} {k i : Nat} {v : β} (hne : i ≠ k)
    (h : Memory.wf d size m = true) :
    Memory.read d (Memory.write d m k v) i = Memory.read d m i := by
  induction m with
  | nil => by_cases hv : v = d <;> simp [Memory.write, Memory.read, hv, hne.symm]
  | cons e m ih =>
    obtain ⟨j, w⟩ := e
    rw [Memory.wf_cons_iff] at h
    obtain ⟨-, -, hm, hwf⟩ := h
    simp only [Memory.write]
    split
    · split
      · rfl
      · simp [Memory.read, hne.symm]
    · split
      · next hkeq =>
        subst hkeq
        split
        · simp [Memory.read, hne.symm]
        · simp [Memory.read, hne.symm]
      · simp [Memory.read, ih hwf]

/-- Reset leaves both memories canonical. -/
theorem resetWith_memories_wf (v : Config.ResetValues) :
    Memory.wf ramDefault Config.ramSize (State.resetWith v).ram = true ∧
      Memory.wf romDefault Config.romSize (State.resetWith v).rom = true := ⟨rfl, rfl⟩

/-- `MemWrite` keeps RAM canonical. -/
theorem ramWrite_wf {k : Nat} {v : S64} {s : State} (hk : k < Config.ramSize)
    (h : Memory.wf ramDefault Config.ramSize s.ram = true) :
    Memory.wf ramDefault Config.ramSize (ramWrite k v s).ram = true :=
  Memory.wf_write hk h

/-- Every entry of a loaded ROM stands at its record's index and is one of the records. -/
theorem mem_romOf {i : Nat} {rs : List Instr} {c : Nat × Instr} (h : c ∈ romOf i rs) :
    i ≤ c.1 ∧ c.1 < i + rs.length ∧ c.2 ∈ rs := by
  induction rs generalizing i with
  | nil => simp [romOf] at h
  | cons r rs ih =>
    have tail : c ∈ romOf (i + 1) rs → i ≤ c.1 ∧ c.1 < i + (r :: rs).length ∧ c.2 ∈ r :: rs := by
      intro h
      obtain ⟨h1, h2, h3⟩ := ih h
      exact ⟨by omega, by simp only [List.length_cons]; omega, List.mem_cons_of_mem _ h3⟩
    simp only [romOf] at h
    split at h
    · exact tail h
    · rcases List.mem_cons.mp h with rfl | h
      · simp
      · exact tail h

/-- A loaded ROM is canonical. -/
theorem romOf_wf {i : Nat} {rs : List Instr} (h : i + rs.length ≤ size) :
    Memory.wf romDefault size (romOf i rs) = true := by
  induction rs generalizing i with
  | nil => rfl
  | cons r rs ih =>
    simp only [List.length_cons] at h
    have hrest : Memory.wf romDefault size (romOf (i + 1) rs) = true := ih (by omega)
    simp only [romOf]
    split
    · exact hrest
    · next hr =>
      rw [Memory.wf_cons_iff]
      exact ⟨by omega, hr, fun c hc => by have := (mem_romOf hc).1; omega, hrest⟩

/-- Reading a loaded ROM: the record of the image, or the padding record. -/
theorem read_romOf (i k : Nat) (rs : List Instr) :
    Memory.read romDefault (romOf i rs) (i + k) = (rs[k]?).getD romDefault := by
  induction rs generalizing i k with
  | nil => rfl
  | cons r rs ih =>
    cases k with
    | zero =>
      by_cases hr : r = romDefault
      · have : Memory.read romDefault (romOf (i + 1) rs) i = romDefault :=
          Memory.read_of_forall_lt _ _ _ fun c hc => by have := (mem_romOf hc).1; omega
        simp [romOf, hr, this]
      · simp [romOf, hr, Memory.read]
    | succ k =>
      have hstep := ih (i + 1) k
      rw [show i + 1 + k = i + (k + 1) by omega] at hstep
      by_cases hr : r = romDefault
      · simpa [romOf, hr] using hstep
      · simpa [romOf, hr, Memory.read, show i ≠ i + (k + 1) by omega] using hstep

end Sys2Proof.Machine
end

