-- ==== Sys2Proof/Laws/Ops.lean ====
section
/-!
SUPPORT. What each shared operation answers, once: the end of a Step, the index conversions, the jumps, the ALU, the fetch.
-/
namespace Sys2Proof.Machine

/-- The check of an index conversion, as a proposition. -/
theorem inRange_iff (k : S64) : inRange k = true ↔ IndexOk k := by
  simp [inRange, IndexOk]

/-- The index of a good operand is below 256. -/
theorem IndexOk.lt {k : S64} (h : IndexOk k) : k.toInt.toNat < 256 := by
  obtain ⟨h0, h1⟩ := h; omega

/-- An index conversion goes on with a good operand. -/
theorem withIndex_of_ok {c : FaultCause} {k : S64} {s : State} {go : Nat → Result} (h : IndexOk k) :
    withIndex c k s go = go k.toInt.toNat := by
  simp [withIndex, (inRange_iff k).mpr h]

/-- An index conversion takes its fault on a bad operand. -/
theorem withIndex_of_bad {c : FaultCause} {k : S64} {s : State} {go : Nat → Result} (h : ¬IndexOk k) :
    withIndex c k s go = takeFault c k s := by
  simp [withIndex, mt (inRange_iff k).mp h]

/-- Everything an index conversion can do. -/
theorem withIndex_cases (c : FaultCause) (k : S64) (s : State) (go : Nat → Result) :
    (IndexOk k ∧ withIndex c k s go = go k.toInt.toNat) ∨
      (¬IndexOk k ∧ withIndex c k s go = takeFault c k s) := by
  by_cases h : IndexOk k
  · exact .inl ⟨h, withIndex_of_ok h⟩
  · exact .inr ⟨h, withIndex_of_bad h⟩

/-- The end of a Step where no jump was requested. -/
theorem complete_of_not_pending {s : State} (h : s.jp = false) :
    complete s = .next { s with pc := s.pc + 1 } := by
  simp [complete, controlAdvance_of_not_pending h]

/-- A taken jump to a good target. -/
theorem takeJump_of_ok {k : S64} {s : State} (h : IndexOk k) :
    takeJump k s = .next { s with
      pc := .ofNat 8 k.toInt.toNat, jr := .ofNat 8 k.toInt.toNat, jp := false } := by
  simp only [takeJump, withJumpIndex, withIndex_of_ok h, complete, controlAdvance_requestJump]

/-- A taken jump to a bad target. -/
theorem takeJump_of_bad {k : S64} {s : State} (h : ¬IndexOk k) :
    takeJump k s = takeFault .jumpTargetFault k s := by
  simp only [takeJump, withJumpIndex, withIndex_of_bad h]

/-- Everything a conditional jump can do. -/
theorem jumpIf_cases (check taken : Bool) (k : S64) (s : State) :
    (taken = true ∧ jumpIf check taken k s = takeJump k s) ∨
      (taken = false ∧ (check = false ∨ IndexOk k) ∧ jumpIf check taken k s = complete s) ∨
      (taken = false ∧ check = true ∧ ¬IndexOk k ∧
        jumpIf check taken k s = takeFault .jumpTargetFault k s) := by
  cases taken
  · cases check
    · simp [jumpIf]
    · rcases withIndex_cases .jumpTargetFault k s fun _ => complete s with ⟨h, e⟩ | ⟨h, e⟩
      · exact .inr (.inl ⟨rfl, .inr h, by simpa [jumpIf, withJumpIndex] using e⟩)
      · exact .inr (.inr ⟨rfl, rfl, h, by simpa [jumpIf, withJumpIndex] using e⟩)
  · simp [jumpIf]

/-- The wrapped sum is the sum of the words (00_scope.md R8). -/
theorem wrap64_add (x y : S64) : wrap64 (x.toInt + y.toInt) = x + y := by
  simp [wrap64, BitVec.ofInt_add]

/-- The wrapped difference is the difference of the words. -/
theorem wrap64_sub (x y : S64) : wrap64 (x.toInt - y.toInt) = x - y := by
  apply BitVec.eq_of_toInt_eq
  simp [wrap64, BitVec.toInt_sub, BitVec.toInt_ofInt]

/-- The narrowed value is the exact one up to a multiple of `2^64`. -/
theorem wrap64_congr (z : Int) : ∃ q : Int, z = (wrap64 z).toInt + q * 2 ^ 64 := by
  refine ⟨(z + 2 ^ 63) / 2 ^ 64, ?_⟩
  simp only [wrap64, BitVec.toInt_ofInt, Int.bmod_def]
  split <;> omega

/-- The fetch reads the loaded ROM while the machine is running. -/
theorem fetch_of_running {s : State} (h : s.status = .running) :
    fetch s = Memory.read romDefault s.rom s.pc.toNat := by
  simp [fetch, romRead, h, Status.romLoaded]

/-- Two states with the same ROM and a loaded status read the same records. -/
theorem romRead_of_loaded {s : State} (h : s.status.romLoaded = true) (k : Nat) :
    romRead s k = Memory.read romDefault s.rom k := by
  simp [romRead, h]

/-- Everything a step can do: execute the record at `PC`, or stop by the name of its status. -/
theorem step_cases (s : State) :
    (s.status = .running ∧ step s = exec (fetch s) s) ∨
      (s.status ≠ .running ∧ ∃ f, step s = .fault f) := by
  cases h : s.status <;> simp [step, h]

/-- The statuses from which a load is refused. -/
theorem loadImage_cases (bytes : List Byte) (s : State) :
    (s.status = .unloaded ∧ ∃ t, loadImage bytes s = .next t) ∨
      (s.status ≠ .unloaded ∧ loadImage bytes s = .refused .loadWithoutReset) := by
  by_cases h : s.status = .unloaded
  · refine .inl ⟨h, ?_⟩
    simp only [loadImage, h, if_true]
    split
    · exact ⟨_, rfl⟩
    · split
      · exact ⟨_, rfl⟩
      · split <;> exact ⟨_, rfl⟩
  · exact .inr ⟨h, by simp [loadImage, h]⟩

/-- Everything a load that is not refused can do: record a load fault and nothing else, or build the ROM. -/
theorem loadImage_next {bytes : List Byte} {s t : State} (h : loadImage bytes s = .next t) :
    s.status = .unloaded ∧
      ((∃ c n l, t = { s with status := .loadFailed, fault := some ⟨c, n, l⟩ }) ∨
        ∃ rs, bytes.length % 8 = 0 ∧ bytes.length / 8 ≤ 256 ∧ decodeImage 0 bytes = .ok rs ∧
          t = { s with rom := romOf 0 rs, status := .running }) := by
  rcases loadImage_cases bytes s with ⟨hu, -⟩ | ⟨-, e⟩
  · refine ⟨hu, ?_⟩
    simp only [loadImage, hu, if_true] at h
    split at h
    · cases h; exact .inl ⟨_, _, _, rfl⟩
    · next h8 =>
      split at h
      · cases h; exact .inl ⟨_, _, _, rfl⟩
      · next hlen =>
        split at h
        · cases h; exact .inl ⟨_, _, _, rfl⟩
        · next rs hrs =>
          cases h
          exact .inr ⟨rs, by simpa [Config.recordSize] using h8,
            by simpa [Config.recordSize, Config.romSize] using hlen, hrs, rfl⟩
  · rw [e] at h; cases h

end Sys2Proof.Machine
end

