-- ==== Sys2Proof/Laws/Exec.lean ====
section
/-!
SUPPORT. What `exec` can do, said once for all instructions: a fault of a bad index, or the effect followed by the control
advance (41_execution_cycle.md R130). The meanings themselves stand in Machine/; the equation is proved from them.
-/
namespace Sys2Proof.Machine

/-- `Effect(op, k)` of 41_execution_cycle.md R130 where no fault is raised. -/
def effect (i : Instr) (s : State) : State :=
  match i with
  | .nop _ => s
  | .lda k => setA (ramRead s k.toInt.toNat) s
  | .sta k => ramWrite k.toInt.toNat s.a s
  | .add k => aluAdd (ramRead s k.toInt.toNat) s
  | .sub k => aluSub (ramRead s k.toInt.toNat) s
  | .out _ => emitA s
  | .jmp k => requestJump k.toInt.toNat s
  | .jc k => if s.carry then requestJump k.toInt.toNat s else s
  | .jz k => if s.zero then requestJump k.toInt.toNat s else s
  | .hlt _ => s
  | .ldi v => setA v s
  | .adi v => aluAdd v s
  | .ldr k => setA (romOperand s k.toInt.toNat) s
  | .adr k => aluAdd (romOperand s k.toInt.toNat) s

/-- The state after the effect and the control advance, halted if the instruction was `HLT`. -/
def completed (i : Instr) (s : State) : State :=
  match i with
  | .hlt _ => { controlAdvance s with status := .halted }
  | _ => controlAdvance (effect i s)

/-- The faulted state a bad index leaves. -/
def faulted (c : FaultCause) (k : S64) (s : State) : State :=
  { s with status := .faulted, fault := some ⟨c, k.toInt, some s.pc.toNat⟩ }

/-- A fault that is raised is the opcode's own. -/
theorem indexCause_of_indexFault {i : Instr} {s : State} {c : FaultCause} (h : indexFault i s = some c) :
    indexCause i = some c := by
  cases i
  case jc => cases hc : s.carry <;> simp_all [indexFault]
  case jz => cases hz : s.zero <;> simp_all [indexFault]
  all_goals exact h

/-- An instruction whose operand is no bad index completes. -/
theorem exec_of_no_fault {i : Instr} {s : State} (h : indexFault i s = none ∨ IndexOk i.operand) :
    exec i s = .next (completed i s) := by
  cases i
  case nop => rfl
  case out => rfl
  case hlt => rfl
  case ldi => rfl
  case adi => rfl
  case jc k =>
    cases hc : s.carry
    · simp [exec, execJc, jumpIf, hc, completed, effect, complete, Config.checkUntakenJumpTarget]
    · have hk : IndexOk k := h.resolve_left (by simp [indexFault, indexCause, hc])
      simp [exec, execJc, jumpIf, hc, completed, effect, takeJump_of_ok hk, controlAdvance_requestJump]
  case jz k =>
    cases hc : s.zero
    · simp [exec, execJz, jumpIf, hc, completed, effect, complete, Config.checkUntakenJumpTarget]
    · have hk : IndexOk k := h.resolve_left (by simp [indexFault, indexCause, hc])
      simp [exec, execJz, jumpIf, hc, completed, effect, takeJump_of_ok hk, controlAdvance_requestJump]
  case jmp k =>
    have hk : IndexOk k := h.resolve_left (by simp [indexFault, indexCause])
    simp [exec, execJmp, completed, effect, takeJump_of_ok hk, controlAdvance_requestJump]
  all_goals
    rename_i k
    have hk : IndexOk k := h.resolve_left (by simp [indexFault, indexCause])
    simp only [exec, execLda, execSta, execAdd, execSub, execLdr, execAdr, withRamIndex, withRomIndex,
      withIndex_of_ok hk, complete, completed, effect]

/-- An instruction that uses its operand as an index takes its fault on a bad one. -/
theorem exec_of_bad_index {i : Instr} {s : State} {c : FaultCause} (h : indexFault i s = some c)
    (hk : ¬IndexOk i.operand) : exec i s = .next (faulted c i.operand s) := by
  cases i
  case jc k =>
    cases hc : s.carry <;> simp [indexFault, indexCause, hc] at h
    subst h
    simp only [exec, execJc, jumpIf, hc, if_true]
    exact takeJump_of_bad hk
  case jz k =>
    cases hc : s.zero <;> simp [indexFault, indexCause, hc] at h
    subst h
    simp only [exec, execJz, jumpIf, hc, if_true]
    exact takeJump_of_bad hk
  all_goals
    cases h
    all_goals
      rename_i k
      change ¬IndexOk k at hk
      simp only [exec, execLda, execSta, execAdd, execSub, execJmp, execLdr, execAdr, withRamIndex,
        withRomIndex, takeJump_of_bad hk, withIndex_of_bad hk, takeFault, faulted, Instr.operand]

/-- Everything an instruction can do. -/
theorem exec_cases (i : Instr) (s : State) :
    ((indexFault i s = none ∨ IndexOk i.operand) ∧ exec i s = .next (completed i s)) ∨
      ∃ c, indexFault i s = some c ∧ ¬IndexOk i.operand ∧ exec i s = .next (faulted c i.operand s) := by
  by_cases hk : IndexOk i.operand
  · exact .inl ⟨.inr hk, exec_of_no_fault (.inr hk)⟩
  · cases h : indexFault i s with
    | none => exact .inl ⟨.inl rfl, exec_of_no_fault (.inl h)⟩
    | some c => exact .inr ⟨c, rfl, hk, exec_of_bad_index h hk⟩

/-- The effect never writes the ROM, `STATUS`, `FAULT` or `PC` (10_state.md R38). -/
theorem effect_frame (i : Instr) (s : State) :
    (effect i s).rom = s.rom ∧ (effect i s).status = s.status ∧ (effect i s).fault = s.fault ∧
      (effect i s).pc = s.pc := by
  cases i
  case jc => cases hc : s.carry <;> simp [effect, hc]
  case jz => cases hz : s.zero <;> simp [effect, hz]
  all_goals exact ⟨rfl, rfl, rfl, rfl⟩

/-- A completed instruction leaves no jump pending, the ROM and `FAULT` as they were. -/
theorem completed_frame (i : Instr) (s : State) :
    (completed i s).jp = false ∧ (completed i s).rom = s.rom ∧ (completed i s).fault = s.fault := by
  have h := effect_frame i s
  cases i <;> simp_all [completed]

/-- What a completed instruction makes of `STATUS`. -/
theorem completed_status (i : Instr) (s : State) :
    (completed i s).status = s.status ∧ (∀ k, i ≠ .hlt k) ∨
      (completed i s).status = .halted ∧ ∃ k, i = .hlt k := by
  have h := (effect_frame i s).2.1
  cases i <;> simp_all [completed]

/-- A completed instruction keeps RAM canonical. -/
theorem completed_ram_wf {i : Instr} {s : State} (hk : indexFault i s = none ∨ IndexOk i.operand)
    (h : Memory.wf ramDefault Config.ramSize s.ram = true) :
    Memory.wf ramDefault Config.ramSize (completed i s).ram = true := by
  cases i
  case sta k =>
    have hk : IndexOk k := hk.resolve_left (by simp [indexFault, indexCause])
    simpa [completed, effect] using ramWrite_wf (v := s.a) hk.lt h
  case jc k => cases hc : s.carry <;> simpa [completed, effect, hc] using h
  case jz k => cases hc : s.zero <;> simpa [completed, effect, hc] using h
  all_goals simpa [completed, effect, aluAdd, aluSub] using h

end Sys2Proof.Machine
end

