-- ==== Sys2Proof/Laws/PerInstr.lean ====
section
/-!
SUPPORT. The family `TagSelects`: the tag and the operand of an instruction select it again (30_encoding.md R83, R84).
-/
namespace Sys2Proof.Laws.TagSelects

/-- The instruction is the one its tag and its operand select. -/
def Statement (i : Instr) : Prop :=
  ofTag (tagOf i) i.operand = some i

theorem nop (k : S64) : Statement (.nop k) := rfl
theorem lda (k : S64) : Statement (.lda k) := rfl
theorem sta (k : S64) : Statement (.sta k) := rfl
theorem add (k : S64) : Statement (.add k) := rfl
theorem sub (k : S64) : Statement (.sub k) := rfl
theorem out (k : S64) : Statement (.out k) := rfl
theorem jmp (k : S64) : Statement (.jmp k) := rfl
theorem jc (k : S64) : Statement (.jc k) := rfl
theorem jz (k : S64) : Statement (.jz k) := rfl
theorem hlt (k : S64) : Statement (.hlt k) := rfl
theorem ldi (v : S64) : Statement (.ldi v) := rfl
theorem adi (v : S64) : Statement (.adi v) := rfl
theorem ldr (k : S64) : Statement (.ldr k) := rfl
theorem adr (k : S64) : Statement (.adr k) := rfl

end Sys2Proof.Laws.TagSelects
end

