-- ==== Sys2Proof/Tests/Slice0.lean ====
section
/-!
SUPPORT. Tests. Expected results are taken from spec/95_test_vectors.md (the row is named at each test) or from the rule named.
The last part holds, for each statement with hypotheses, a concrete state and operands that meet them.
-/
namespace Sys2Proof.Tests
open Sys2Proof Sys2Proof.Machine

/-! ### WellFormed: each check refuses an ill-formed term, and the boundary terms pass (95_test_vectors.md S2) -/

theorem test_wellFormed_max : (Instr.ldi 36028797018963967).WellFormed := by decide
theorem test_illFormed_above_max : ¬(Instr.ldi 36028797018963968).WellFormed := by decide
theorem test_wellFormed_min : (Instr.nop (.ofInt 64 (-36028797018963968))).WellFormed := by decide
theorem test_illFormed_below_min : ¬(Instr.nop (.ofInt 64 (-36028797018963969))).WellFormed := by decide

/-! ### Decoding: a word of each constructor, written out from 30_encoding.md R81 and R83 -/

/-- `00 12 34 56 78 9A BC DE`, E28 -/
theorem test_decode_nop : decode [0x00, 0x12, 0x34, 0x56, 0x78, 0x9A, 0xBC, 0xDE] =
    .ok (.nop 5124095576030430, []) := by rfl
/-- E23 -/
theorem test_decode_lda : decode [0x01, 0, 0, 0, 0, 0, 0x01, 0x00] = .ok (.lda 256, []) := by rfl
/-- E22 -/
theorem test_decode_sta : decode [0x02, 0xFF, 0xFF, 0xFF, 0xFF, 0xFF, 0xFF, 0x00] =
    .ok (.sta (.ofInt 64 (-256)), []) := by rfl
/-- E4 -/
theorem test_decode_add : decode [0x03, 0, 0, 0, 0, 0, 0, 0x01] = .ok (.add 1, []) := by rfl
/-- E5 -/
theorem test_decode_sub : decode [0x04, 0, 0, 0, 0, 0, 0, 0x01] = .ok (.sub 1, []) := by rfl
/-- E6 -/
theorem test_decode_out : decode [0x05, 0, 0, 0, 0, 0, 0, 0] = .ok (.out 0, []) := by rfl
/-- E18 -/
theorem test_decode_jmp : decode [0x06, 0, 0, 0, 0, 0, 0, 0x80] = .ok (.jmp 128, []) := by rfl
/-- E26 -/
theorem test_decode_jc : decode [0x07, 0, 0, 0, 0, 0, 0x01, 0x2C] = .ok (.jc 300, []) := by rfl
/-- E27 -/
theorem test_decode_jz : decode [0x08, 0xFF, 0xFF, 0xFF, 0xFF, 0xFF, 0xFF, 0xF9] =
    .ok (.jz (.ofInt 64 (-7)), []) := by rfl
/-- E29 -/
theorem test_decode_hlt : decode [0x09, 0xFF, 0xFF, 0xFF, 0xFF, 0xFF, 0xFF, 0xFF] =
    .ok (.hlt (.ofInt 64 (-1)), []) := by rfl
/-- E25 -/
theorem test_decode_ldi : decode [0x0A, 0x80, 0, 0, 0, 0, 0, 0] =
    .ok (.ldi (.ofInt 64 (-36028797018963968)), []) := by rfl
/-- E16 -/
theorem test_decode_adi : decode [0x0B, 0xFF, 0xFF, 0xFF, 0xFF, 0xFF, 0xFF, 0xFE] =
    .ok (.adi (.ofInt 64 (-2)), []) := by rfl
/-- E13 -/
theorem test_decode_ldr : decode [0x0C, 0, 0, 0, 0, 0, 0, 0x01] = .ok (.ldr 1, []) := by rfl
/-- E30 -/
theorem test_decode_adr : decode [0x0D, 0x80, 0, 0, 0, 0, 0, 0x01] =
    .ok (.adr (.ofInt 64 (-36028797018963967)), []) := by rfl
/-- E33: the tag is unsigned -/
theorem test_decode_unknown : decode [0x80, 0, 0, 0, 0, 0, 0, 0] = .error (.unknownOpcode 128) := by rfl
/-- E20: byte order of the operand -/
theorem test_encode_byte_order : encode (.ldi 281474976710656) =
    .ok [0x0A, 0x01, 0, 0, 0, 0, 0, 0] := by rfl
/-- E34: the range check holds for every opcode -/
theorem test_encode_range : encode (.nop 36028797018963968) =
    .error (.operandRange 36028797018963968) := by rfl
/-- E37 -/
theorem test_pack_bad_tag : pack 14 0 = .error (.unknownOpcode 14) := by rfl
/-- L12: no bytes of the first record -/
theorem test_serialize_all_or_nothing : serialize [.ldi 1, .ldi 36028797018963968] =
    .error (.operandRange 36028797018963968) := by rfl
/-- spec/opcode_table.json, row STA: match 0x0200000000000000 -/
theorem test_table_word_sta : decodeTableWord 64 0x0200000000000000 = some (.sta 0) := by rfl

/-! ### The loader (95_test_vectors.md, table L) -/

/-- The state an outcome goes on with, if it does. -/
def after (r : Result) : Option State :=
  match r with
  | .next t => some t
  | .fault _ => none
  | .refused _ => none

/-- L5 -/
theorem test_load_length : (after (loadImage [0x0A, 0, 0, 0, 0, 0, 0] .reset)).map statusPort =
    some (.loadFailed, some ⟨.imageLengthFault, 7, none⟩) := by decide
/-- L7 -/
theorem test_load_bad_tag :
    (after (loadImage [0x09, 0, 0, 0, 0, 0, 0, 0, 0x0E, 0, 0, 0, 0, 0, 0, 0] .reset)).map statusPort =
      some (.loadFailed, some ⟨.unknownOpcodeFault, 14, some 1⟩) := by decide
/-- L2, first and padding record -/
theorem test_load_records :
    (after (loadImage [0x0A, 0, 0, 0, 0, 0, 0, 0x05, 0x05, 0, 0, 0, 0, 0, 0, 0] .reset)).map
      (fun t => (romRead t 0, romRead t 1, romRead t 255, t.status)) =
      some (.ldi 5, .out 0, .hlt 0, .running) := by decide
/-- L1: the empty image halts on its first Step with `PC = 1` -/
theorem test_load_empty_then_step :
    ((after (loadImage [] .reset)).bind fun t => after (step t)).map (fun t => (t.status, t.pc)) =
      some (.halted, 1) := by decide
/-- 10_state.md R30: no Step before a load -/
theorem test_reset_takes_no_step : (after (step .reset)).isNone = true := by decide

/-! ### One Step of each instruction (95_test_vectors.md, tables A, B, I, J, F) -/

/-- A running machine at `PC = 10` with nothing in RAM and ROM. -/
def base : State :=
  { State.reset with status := .running, pc := 10 }

/-- `base` with a record at `PC`. -/
def at10 (i : Instr) (s : State) : State :=
  { s with rom := Memory.write romDefault s.rom 10 i }

/-- `MIN` of 95_test_vectors.md. -/
def smin : S64 := 0x8000000000000000
/-- `MAX` of 95_test_vectors.md. -/
def smax : S64 := 0x7FFFFFFFFFFFFFFF

/-- I2 -/
theorem test_nop_wraps : (after (exec (.nop 0) { base with pc := 255 })).map State.pc = some 0 := by decide
/-- I3 -/
theorem test_lda : (after (exec (.lda 7) { base with ram := [(7, 10)], a := 1, zero := true })).map
    (fun t => (t.a, t.zero, t.pc)) = some (10, true, 11) := by decide
/-- F2 -/
theorem test_lda_fault : (after (step (at10 (.lda (.ofInt 64 (-1))) base))).map
    (fun t => (t.status, t.fault, t.pc)) = some (.faulted, some ⟨.ramIndexFault, -1, some 10⟩, 10) := by decide
/-- I5 -/
theorem test_sta : (after (exec (.sta 255) { base with a := .ofInt 64 (-3) })).map
    (fun t => (ramRead t 255, ramRead t 0)) = some (.ofInt 64 (-3), 0) := by decide
/-- F3: cell 0 is not written -/
theorem test_sta_fault : (after (exec (.sta 256) { base with a := 1 })).map
    (fun t => (ramRead t 0, t.status)) = some (0, .faulted) := by decide
/-- A11 -/
theorem test_add_both_flags : (after (exec (.add 0) { base with ram := [(0, smin)], a := smin })).map
    (fun t => (t.a, t.carry, t.zero)) = some (0, true, true) := by decide
/-- A9 -/
theorem test_add_overflow : (after (exec (.add 0) { base with ram := [(0, smax)], a := smax })).map
    (fun t => (t.a, t.carry, t.zero)) = some (.ofInt 64 (-2), true, false) := by decide
/-- B8 -/
theorem test_sub_min_from_zero : (after (exec (.sub 8) { base with ram := [(8, smin)] })).map
    (fun t => (t.a, t.carry, t.zero)) = some (smin, true, false) := by decide
/-- B9 -/
theorem test_sub_min_from_minus_one :
    (after (exec (.sub 8) { base with ram := [(8, smin)], a := .ofInt 64 (-1) })).map
      (fun t => (t.a, t.carry, t.zero)) = some (smax, false, false) := by decide
/-- I13 -/
theorem test_out : (after (exec (.out 0) { base with a := 7, outTrace := [1] })).map
    (fun t => (t.outTrace, t.a, t.pc)) = some ([1, 7], 7, 11) := by decide
/-- J1 -/
theorem test_jmp : (after (exec (.jmp 1) { base with pc := 4 })).map
    (fun t => (t.pc, t.jr, t.jp)) = some (1, 1, false) := by decide
/-- F9: not a jump to 0 -/
theorem test_jmp_fault : (after (exec (.jmp 256) base)).map
    (fun t => (t.pc, t.jp, t.fault)) = some (10, false, some ⟨.jumpTargetFault, 256, some 10⟩) := by decide
/-- J4 -/
theorem test_jc_taken : (after (exec (.jc 5) { base with pc := 3, carry := true, jr := 9 })).map
    (fun t => (t.pc, t.jr, t.carry)) = some (5, 5, true) := by decide
/-- J10 -/
theorem test_jc_untaken : (after (exec (.jc 300) { base with pc := 3, jr := 9 })).map
    (fun t => (t.pc, t.jr, t.status)) = some (4, 9, .running) := by decide
/-- J6 -/
theorem test_jz_taken : (after (exec (.jz 5) { base with pc := 3, zero := true })).map
    (fun t => (t.pc, t.jr, t.zero)) = some (5, 5, true) := by decide
/-- J7 -/
theorem test_jz_untaken : (after (exec (.jz 5) { base with pc := 3, carry := true })).map State.pc =
    some 4 := by decide
/-- I16 -/
theorem test_hlt : (after (exec (.hlt 0) { base with pc := 255 })).map
    (fun t => (t.pc, t.status)) = some (0, .halted) := by decide
/-- I7 -/
theorem test_ldi : (after (exec (.ldi (.ofInt 64 (-1))) { base with a := 1, carry := true })).map
    (fun t => (t.a, t.carry)) = some (.ofInt 64 (-1), true) := by decide
/-- I20 -/
theorem test_adi_refreshes_flags : (after (exec (.adi 0) { base with carry := true })).map
    (fun t => (t.a, t.carry, t.zero)) = some (0, false, true) := by decide
/-- I10: it reads its own operand -/
theorem test_ldr_own : (after (step (at10 (.ldr 10) base))).map State.a = some 10 := by decide
/-- I11: a padding record -/
theorem test_ldr_padding : (after (exec (.ldr 200) { base with a := 3 })).map State.a = some 0 := by decide
/-- I23 -/
theorem test_adr_own : (after (step (at10 (.adr 10) { base with a := 5 }))).map
    (fun t => (t.a, t.carry, t.zero)) = some (15, false, false) := by decide
/-- F7: flags unchanged, and the ROM index fault has its own name -/
theorem test_adr_fault : (after (exec (.adr (.ofInt 64 (-1))) { base with carry := true })).map
    (fun t => (t.carry, t.fault)) = some (true, some ⟨.romIndexFault, -1, some 10⟩) := by decide
/-- The host's view: the first Step after reset runs the placed word (97 is `LDI 97` of 30_encoding.md R81). -/
theorem test_fetch_word : (after (step (State.reset.withFetchWord 64 0x0A00000000000061))).map
    (fun t => (t.a, t.pc)) = some (97, 1) := by decide

/-! ### The assembler (95_test_vectors.md, table X) -/

/-- X3 -/
theorem test_parse_case : parseLine ['l', 'd', 'i', ' ', '5'] = .error .unknownMnemonic := by rfl
/-- X6 -/
theorem test_parse_missing : parseLine ['L', 'D', 'A'] = .error .missingOperand := by rfl
/-- S9 -/
theorem test_parse_bad : parseLine ['L', 'D', 'A', ' ', 'x'] = .error .badOperand := by rfl
/-- 30_encoding.md R91: a token outside ASCII that is no number is an error, whatever the open grammar. -/
theorem test_parse_non_numeric : parseLine ['L', 'D', 'A', ' ', 'é'] = .error .badOperand := by rfl
/-- 30_encoding.md R92: whether `+5` and Arabic-Indic 12 are accepted is open; their values are not. -/
theorem test_parse_open : literalValue ['+', '5'] = (if Config.asmLiteral ['+', '5'] then some 5 else none) ∧
    literalValue ['\u0661', '\u0662'] = (if Config.asmLiteral ['\u0661', '\u0662'] then some 12 else none) := ⟨rfl, rfl⟩
/-- Gurung Khema nine and Kirat Rai zero, the ends of two runs of Unicode 16's decimal digits; 75 runs stand outside ASCII. -/
theorem test_digit_runs : digitZeros.length = 75 ∧ digitValue (.ofNat 0x16139) = some 9 ∧
    digitValue (.ofNat 0x16D70) = some 0 ∧ digitValue (.ofNat 0x1613A) = none := ⟨rfl, rfl, rfl, rfl⟩
/-- X12 -/
theorem test_parse_extra : parseLine ['L', 'D', 'I', ' ', '1', ' ', '2'] = .error .extraToken := by rfl
/-- X2, its first two lines -/
theorem test_assemble :
    assemble [' ', 'L', 'D', 'I', ' ', ' ', '5', ' ', '\n', 'O', 'U', 'T', '\n', '\n'] = .ok [.ldi 5, .out 0] := by rfl
/-- X10 -/
theorem test_assemble_blank_line : assemble ['O', 'U', 'T', '\n', '\n', 'H', 'L', 'T'] = .error .blankLine := by rfl

/-! ### Witnesses: for each statement with hypotheses, a state and operands that meet them; for a statement of several
clauses, each clause at its boundary -/

theorem witness_NopOnlyAdvances : base.jp = false := rfl
theorem witness_OutEmitsAccumulator : { base with a := smin }.jp = false := rfl
theorem witness_HltAdvancesThenHalts : { base with pc := 255 }.jp = false := rfl
theorem witness_LdaLoadsCell : base.jp = false ∧ IndexOk 255 ∧ ¬IndexOk 256 := by decide
theorem witness_StaStoresAccumulator :
    base.jp = false ∧ Memory.wf ramDefault Config.ramSize base.ram = true ∧ IndexOk 0 ∧
      ¬IndexOk (.ofInt 64 (-1)) := by decide
theorem witness_LdiLoadsLiteral : { base with pc := 0 }.jp = false := rfl
theorem witness_LdrLoadsRecordOperand : base.jp = false ∧ IndexOk 255 ∧ ¬IndexOk 256 := by decide
theorem witness_AddAddsCell : { base with a := smax }.jp = false ∧ IndexOk 255 ∧ ¬IndexOk smax := by decide
theorem witness_SubSubtractsCell : { base with a := smin }.jp = false ∧ IndexOk 0 ∧ ¬IndexOk smin := by decide
theorem witness_AdiAddsLiteral : { base with a := smax }.jp = false := rfl
theorem witness_AdrAddsRecordOperand : base.jp = false ∧ IndexOk 0 ∧ ¬IndexOk (.ofInt 64 (-1)) := by decide
theorem witness_JmpJumpsToTarget : IndexOk 0 ∧ IndexOk 255 ∧ ¬IndexOk 256 := by decide
theorem witness_JcSteersByCarry : { base with carry := true }.jp = false ∧ { base with carry := true }.carry = true ∧
    IndexOk 255 ∧ ¬IndexOk 256 ∧ base.jp = false ∧ base.carry = false := by decide
theorem witness_JzSteersByZero : { base with zero := true }.jp = false ∧ { base with zero := true }.zero = true ∧
    IndexOk 0 ∧ ¬IndexOk (.ofInt 64 (-1)) ∧ base.jp = false ∧ base.zero = false := by decide
theorem witness_UntakenJumpLooksAtOperandOnlyIfChecked : base.jp = false ∧ ¬IndexOk 256 ∧ IndexOk 255 := by decide
/-- A Step of `NOP`, which meets the hypothesis of every clause. -/
theorem witness_AccessMatrixWrites :
    exec (.nop 0) base = .next { base with pc := 11 } ∧ (∀ k, Instr.nop 0 ≠ .sta k) ∧ (∀ k, Instr.nop 0 ≠ .out k) ∧
      (∀ k, Instr.nop 0 ≠ .lda k) ∧ (∀ k, Instr.nop 0 ≠ .ldi k) ∧ (∀ k, Instr.nop 0 ≠ .ldr k) ∧
      (∀ k, Instr.nop 0 ≠ .add k) ∧ (∀ k, Instr.nop 0 ≠ .sub k) ∧ (∀ k, Instr.nop 0 ≠ .adi k) ∧
      (∀ k, Instr.nop 0 ≠ .adr k) ∧ takenJump (.nop 0) base = false ∧ (∀ k, Instr.nop 0 ≠ .hlt k) :=
  ⟨rfl, by simp, by simp, by simp, by simp, by simp, by simp, by simp, by simp, by simp, rfl, by simp⟩
theorem witness_FlagsAreReadOnlyByTheirJump :
    (∀ k, Instr.jz 5 ≠ .jc k) ∧ (∀ k, Instr.jc 5 ≠ .jz k) := ⟨by simp, by simp⟩
theorem witness_StaleJumpRegisterIsNeverRead : { base with jr := 9 }.jp = false := rfl
theorem witness_FaultingStepIsPrecise :
    step (at10 (.lda 256) base) = .next { at10 (.lda 256) base with
      status := .faulted, fault := some ⟨.ramIndexFault, 256, some 10⟩ } := rfl
/-- A taken jump and an untaken one. -/
theorem witness_ControlAdvanceSeenFromOutside :
    (at10 (.jmp 255) base).jp = false ∧
      step (at10 (.jmp 255) base) = .next { at10 (.jmp 255) base with pc := 255, jr := 255 } ∧
      takenJump (fetch (at10 (.jmp 255) base)) (at10 (.jmp 255) base) = true ∧
      step (at10 (.jc 255) base) = .next { at10 (.jc 255) base with pc := 11 } ∧
      takenJump (fetch (at10 (.jc 255) base)) (at10 (.jc 255) base) = false := ⟨rfl, rfl, rfl, rfl, rfl⟩
theorem witness_StatusAfterAStep :
    step base = .next { base with pc := 11, status := .halted } ∧ fetch base = .hlt 0 := ⟨rfl, rfl⟩
theorem witness_StepRunsTheRecordAtPc : base.status = .running := rfl
/-- The second record of a two-record image, later in the run. -/
theorem witness_StepRunsTheDecodedBytes :
    ∃ t, loadImage [0, 0, 0, 0, 0, 0, 0, 0, 0x01, 0, 0, 0, 0, 0, 0, 0xFF] .reset = .next t ∧ t.status = .running ∧
      { t with pc := 1, a := 5 }.rom = t.rom ∧ { t with pc := 1, a := 5 }.status = .running ∧
      decode ([0, 0, 0, 0, 0, 0, 0, 0, 0x01, 0, 0, 0, 0, 0, 0, 0xFF].drop (8 * 1)) = .ok (.lda 255, []) :=
  ⟨_, rfl, rfl, rfl, rfl, rfl⟩
theorem witness_PlacedWordRunsNext :
    Memory.wf romDefault Config.romSize State.reset.rom = true ∧
      decodeTableWord 64 0x01000000000000FF = some (.lda 255) := ⟨rfl, rfl⟩
/-- A running machine with its next state, and a machine in every other status. -/
theorem witness_RunLoopStepsWhileRunning :
    base.status = .running ∧ step base = .next { base with pc := 11, status := .halted } ∧
      runLoop 2 base = { base with pc := 11, status := .halted } ∧ State.reset.status ≠ .running ∧
      { base with status := .halted }.status ≠ .running ∧ { base with status := .faulted }.status ≠ .running ∧
      { base with status := .loadFailed }.status ≠ .running :=
  ⟨rfl, rfl, rfl, by decide, by decide, by decide, by decide⟩
theorem witness_EndedRunIsFrozen : RunEnded { base with status := .halted } ∧
    RunEnded { base with status := .faulted } ∧ RunEnded { base with status := .loadFailed } := by decide
/-- A running machine with one cell and one record meets the invariant, and takes a Step. -/
theorem witness_StepKeepsInvariant :
    Inv { base with ram := [(255, 1)], rom := [(255, .ldi 1)] } ∧
      step { base with ram := [(255, 1)], rom := [(255, .ldi 1)] } =
        .next { base with ram := [(255, 1)], rom := [(255, .ldi 1)], pc := 11, status := .halted } :=
  ⟨⟨rfl, by decide, by decide, by decide, by decide, fun h => absurd h (by decide)⟩, rfl⟩
theorem witness_LoadKeepsInvariant :
    Inv State.reset ∧ loadImage [] .reset = .next { State.reset with status := .running } :=
  ⟨⟨rfl, by decide, by decide, by decide, by decide, fun h => absurd h (by decide)⟩, rfl⟩
theorem witness_EveryRunMeetsInvariant :
    boot [] { base with status := .halted } = .next { State.reset with status := .running } := rfl
/-- The empty image and the full one. -/
theorem witness_LoadBuildsTheRom : State.reset.status = .unloaded ∧
    (List.replicate 2048 (13 : Byte)).length % 8 = 0 ∧ (List.replicate 2048 (13 : Byte)).length ≤ 2048 ∧
    ∀ k b, (List.replicate 2048 (13 : Byte))[8 * k]? = some b → b.toNat ≤ 13 := by
  refine ⟨rfl, by rw [List.length_replicate], by rw [List.length_replicate], fun k b h => ?_⟩
  have hb : b = 13 := List.eq_of_mem_replicate (List.mem_of_getElem? h)
  subst hb
  decide
/-- A length fault, a count fault, and a bad tag in record 1 after a good record 0. -/
theorem witness_LoadFaultsInOrder : State.reset.status = .unloaded ∧
    (List.replicate 7 (0 : Byte)).length % 8 ≠ 0 ∧
    ((List.replicate 2056 (0 : Byte)).length % 8 = 0 ∧ 256 < (List.replicate 2056 (0 : Byte)).length / 8) ∧
    ([9, 0, 0, 0, 0, 0, 0, 0, 14, 0, 0, 0, 0, 0, 0, 0] : List Byte)[8 * 1]? = some 14 ∧
    ∀ j c, j < 1 → ([9, 0, 0, 0, 0, 0, 0, 0, 14, 0, 0, 0, 0, 0, 0, 0] : List Byte)[8 * j]? = some c → c.toNat ≤ 13 := by
  refine ⟨rfl, by rw [List.length_replicate]; decide, by rw [List.length_replicate]; decide, rfl,
    fun j c hj h => ?_⟩
  obtain rfl : j = 0 := by omega
  cases h
  decide
theorem witness_LoadWithoutResetIsRefused : base.status ≠ .unloaded := by decide
theorem witness_RamReadsBackTheLastWrite :
    Memory.wf ramDefault Config.ramSize [(0, 1), (255, smin)] = true ∧ (255 : Nat) ≤ 255 := by decide
theorem witness_DecodeEncodeRoundTrip :
    (Instr.adr (.ofInt 64 (-36028797018963968))).WellFormed ∧ (13 : Byte).toNat ≤ 13 := by decide
/-- Each clause at its boundary. -/
theorem witness_EncodePacksTagAndOperand :
    ((13 : Byte).toNat ≤ 13 ∧ -2 ^ 55 ≤ (36028797018963967 : S64).toInt ∧
      (36028797018963967 : S64).toInt ≤ 2 ^ 55 - 1) ∧
    ((0 : Byte).toNat ≤ 13 ∧ 2 ^ 55 - 1 < (36028797018963968 : S64).toInt) ∧
    13 < (14 : Byte).toNat := by decide
theorem witness_DecodeReadsTagAndOperand :
    (2 ^ 55 = (128 : Byte).toNat * 2 ^ 48 + (0 : Byte).toNat * 2 ^ 40 + (0 : Byte).toNat * 2 ^ 32 +
      (0 : Byte).toNat * 2 ^ 24 + (0 : Byte).toNat * 2 ^ 16 + (0 : Byte).toNat * 2 ^ 8 + (0 : Byte).toNat) ∧
    13 < (14 : Byte).toNat ∧ (13 : Byte).toNat ≤ 13 := by decide
theorem witness_TableWordDecodes : (Instr.sta (.ofInt 64 (-1))).WellFormed := by decide
theorem witness_SerializeConcatenatesEncodings :
    (∀ i ∈ [Instr.ldi 36028797018963967, .hlt 0], i.WellFormed) ∧ ¬(Instr.ldi 36028797018963968).WellFormed := by decide
theorem witness_SerializeThenLoadRoundTrip : State.reset.status = .unloaded ∧
    (List.replicate 256 (Instr.nop 0)).length ≤ 256 ∧ ∀ i ∈ List.replicate 256 (Instr.nop 0), i.WellFormed := by
  refine ⟨rfl, by rw [List.length_replicate], fun i h => ?_⟩
  obtain ⟨_, rfl⟩ := List.mem_replicate.mp h
  decide
theorem witness_CanonicalTextParses :
    takesOperand (tagOf (.ldi smin)) = true ∧ (Instr.hlt 0).operand = 0 := by decide
theorem witness_AssembleIsLineByLine :
    trimText ['O', 'U', 'T'] ≠ [] ∧ assemble ['O', 'U', 'T'] = .ok [.out 0] := ⟨by decide, rfl⟩

end Sys2Proof.Tests
end

section
/-!
PROOFS. The family 20_memory.md: `MemRead` and `MemWrite` on RAM.
-/
namespace Sys2Proof.Machine

/-- The written cell reads the value written (20_memory.md R51). -/
theorem ramRead_ramWrite_same {k : Nat} {v : S64} {s : State}
    (h : Memory.wf ramDefault Config.ramSize s.ram = true) : ramRead (ramWrite k v s) k = v :=
  Memory.read_write_same h

/-- Every other cell reads as before (20_memory.md R51). -/
theorem ramRead_ramWrite_other {k j : Nat} {v : S64} {s : State} (hne : j ≠ k)
    (h : Memory.wf ramDefault Config.ramSize s.ram = true) :
    ramRead (ramWrite k v s) j = ramRead s j :=
  Memory.read_write_other hne h

/-- The frame of `MemWrite`: with the former RAM put back, the state is the former state. -/
theorem ramWrite_frame (k : Nat) (v : S64) (s : State) : { ramWrite k v s with ram := s.ram } = s := rfl

/-- After reset no cell has been written, so each reads 0 (20_memory.md R51). -/
@[simp] theorem ramRead_resetWith (v : Config.ResetValues) (k : Nat) :
    ramRead (State.resetWith v) k = 0 :=
  Memory.read_nil ramDefault k

/-- Settles O41: the laws of the canonical memory, read on the RAM of a state. -/
theorem ramReadsBackTheLastWrite : Obligations.RamReadsBackTheLastWrite := by
  unfold Obligations.RamReadsBackTheLastWrite
  refine ⟨fun k v s hwf _ => ⟨?same, ?other, ?frame⟩, ramRead_resetWith⟩
  case same => exact ramRead_ramWrite_same hwf
  case other => exact fun j hne => ramRead_ramWrite_other hne hwf
  case frame => exact ramWrite_frame k v s

end Sys2Proof.Machine
end

section
/-!
PROOFS. The family 40_codec_operations.md: DECODE, SERIALIZE and the faults of LOADIMAGE.
-/
namespace Sys2Proof

/-! ### DECODE of one record (R111) -/

/-- A tag above 13 is the decoder's one error, whatever the other seven bytes. -/
theorem decodeRecord_of_bad_tag {b0 : Byte} (b1 b2 b3 b4 b5 b6 b7 : Byte) (h : 13 < b0.toNat) :
    decodeRecord b0 b1 b2 b3 b4 b5 b6 b7 = .error (.unknownOpcode b0) := by
  simp only [decodeRecord, (ofTag_eq_none_iff b0 _).mpr h]

/-- A valid tag decodes, whatever the other seven bytes. -/
theorem exists_decodeRecord_of_valid_tag {b0 : Byte} (b1 b2 b3 b4 b5 b6 b7 : Byte) (h : b0.toNat ≤ 13) :
    ∃ i, decodeRecord b0 b1 b2 b3 b4 b5 b6 b7 = .ok i := by
  have hsome : ofTag b0 (sext56 (operandField b1 b2 b3 b4 b5 b6 b7)) ≠ none :=
    fun hnone => absurd ((ofTag_eq_none_iff b0 _).mp hnone) (Nat.not_lt.mpr h)
  obtain ⟨i, hi⟩ := Option.ne_none_iff_exists'.mp hsome
  exact ⟨i, by simp only [decodeRecord, hi]⟩

/-- DECODE hands on the error of the record at the head. -/
theorem decode_of_error {b0 b1 b2 b3 b4 b5 b6 b7 : Byte} {e : CodecError} (rest : List Byte)
    (h : decodeRecord b0 b1 b2 b3 b4 b5 b6 b7 = .error e) :
    decode (b0 :: b1 :: b2 :: b3 :: b4 :: b5 :: b6 :: b7 :: rest) = .error e := by
  simp only [decode, h]

/-- DECODE gives the record at the head and the bytes after it. -/
theorem decode_of_ok {b0 b1 b2 b3 b4 b5 b6 b7 : Byte} {i : Instr} (rest : List Byte)
    (h : decodeRecord b0 b1 b2 b3 b4 b5 b6 b7 = .ok i) :
    decode (b0 :: b1 :: b2 :: b3 :: b4 :: b5 :: b6 :: b7 :: rest) = .ok (i, rest) := by
  simp only [decode, h]

/-- Settles O44: the laws of `ofTag` give the tag clauses, those of the operand field and of `sext56` the operand. -/
theorem decodeReadsTagAndOperand : Obligations.DecodeReadsTagAndOperand := by
  unfold Obligations.DecodeReadsTagAndOperand
  intro b0 b1 b2 b3 b4 b5 b6 b7 u hu
  refine ⟨fun hbad => ?bad, fun hvalid => ?valid⟩
  case bad => exact decode_of_error [] (decodeRecord_of_bad_tag b1 b2 b3 b4 b5 b6 b7 hbad)
  case valid =>
    obtain ⟨i, hi⟩ := exists_decodeRecord_of_valid_tag b1 b2 b3 b4 b5 b6 b7 hvalid
    obtain ⟨htag, hoperand, -⟩ := decodeRecord_ok hi
    refine ⟨i, decode_of_ok [] hi, htag, ?_⟩
    rw [hoperand, sext56_toInt, operandField_toNat, ← hu]

/-! ### ENCODE (R110) and SERIALIZE (R116) -/

/-- The 8 bytes of an instruction: what ENCODE gives where the operand fits (`encode_of_wellFormed`). -/
def Instr.bytes (i : Instr) : List Byte := recordBytes (tagOf i) i.operand

@[simp] theorem Instr.length_bytes (i : Instr) : i.bytes.length = 8 := rfl

theorem encode_of_wellFormed {i : Instr} (h : i.WellFormed) : encode i = .ok i.bytes := by
  simp only [encode, pack, Config.lastTag, tagOf_le, if_true, if_pos h, Instr.bytes]

theorem encode_of_not_wellFormed {i : Instr} (h : ¬i.WellFormed) :
    encode i = .error (.operandRange i.operand) := by
  simp only [encode, pack, Config.lastTag, tagOf_le, if_true, if_neg h]

/-- The first ENCODE error is SERIALIZE's answer, and the rest is not looked at. -/
theorem serialize_cons_of_not_wellFormed {i : Instr} (q : List Instr) (h : ¬i.WellFormed) :
    serialize (i :: q) = .error (.operandRange i.operand) := by
  simp only [serialize, encode_of_not_wellFormed h]

theorem serialize_cons_of_ok {i : Instr} {p : List Instr} {cs : List Byte} (h : i.WellFormed)
    (hp : serialize p = .ok cs) : serialize (i :: p) = .ok (i.bytes ++ cs) := by
  simp only [serialize, encode_of_wellFormed h, hp]

theorem serialize_cons_of_error {i : Instr} {p : List Instr} {e : CodecError} (h : i.WellFormed)
    (hp : serialize p = .error e) : serialize (i :: p) = .error e := by
  simp only [serialize, encode_of_wellFormed h, hp]

/-- SERIALIZE of well-formed instructions is their encodings in order, with nothing between them. -/
theorem serialize_of_wellFormed {p : List Instr} (h : ∀ i ∈ p, i.WellFormed) :
    serialize p = .ok (p.flatMap Instr.bytes) := by
  induction p with
  | nil => rfl
  | cons i p ih =>
    obtain ⟨hi, hp⟩ := List.forall_mem_cons.mp h
    exact serialize_cons_of_ok hi (ih hp)

/-- After a well-formed prefix, SERIALIZE reports the first operand that does not fit. -/
theorem serialize_append_of_not_wellFormed {p : List Instr} {i : Instr} (q : List Instr)
    (hp : ∀ j ∈ p, j.WellFormed) (hi : ¬i.WellFormed) :
    serialize (p ++ i :: q) = .error (.operandRange i.operand) := by
  induction p with
  | nil => exact serialize_cons_of_not_wellFormed q hi
  | cons j p ih =>
    obtain ⟨hj, hp⟩ := List.forall_mem_cons.mp hp
    exact serialize_cons_of_error hj (ih hp)

theorem length_flatMap_bytes (p : List Instr) : (p.flatMap Instr.bytes).length = 8 * p.length := by
  simp [List.length_flatMap, Nat.mul_comm]

/-- In a concatenation of encodings the `k`-th 8 bytes are the `k`-th encoding. -/
theorem take_drop_flatMap_bytes {p : List Instr} {k : Nat} {i : Instr} (h : p[k]? = some i) :
    ((p.flatMap Instr.bytes).drop (8 * k)).take 8 = i.bytes := by
  induction p generalizing k with
  | nil => cases h
  | cons j p ih =>
    rw [List.flatMap_cons]
    cases k with
    | zero =>
      cases h
      exact List.take_left' i.length_bytes
    | succ k =>
      rw [Nat.mul_succ, Nat.add_comm, ← List.drop_drop, List.drop_left' j.length_bytes]
      exact ih h

/-- Settles O47: SERIALIZE is the concatenation of the encodings, or stops at the first operand out of range. -/
theorem serializeConcatenatesEncodings : Obligations.SerializeConcatenatesEncodings := by
  unfold Obligations.SerializeConcatenatesEncodings
  refine ⟨fun p hp => ⟨p.flatMap Instr.bytes, serialize_of_wellFormed hp, length_flatMap_bytes p, ?kth⟩,
    fun p q i hp hi => serialize_append_of_not_wellFormed q hp hi⟩
  case kth =>
    intro k i hk
    rw [take_drop_flatMap_bytes hk, encode_of_wellFormed (hp i (List.mem_of_getElem? hk))]

end Sys2Proof

namespace Sys2Proof.Machine

/-! ### The faults of LOADIMAGE (R114) -/

/-- A buffer of at least 8 bytes is a record and the bytes after it. -/
theorem exists_record_of_length {bytes : List Byte} (h : 8 ≤ bytes.length) :
    ∃ b0 b1 b2 b3 b4 b5 b6 b7 rest, bytes = b0 :: b1 :: b2 :: b3 :: b4 :: b5 :: b6 :: b7 :: rest := by
  match bytes, h with
  | b0 :: b1 :: b2 :: b3 :: b4 :: b5 :: b6 :: b7 :: rest, _ => exact ⟨b0, b1, b2, b3, b4, b5, b6, b7, rest, rfl⟩

theorem decodeImage_cons_of_bad_tag {b0 : Byte} (i : Nat) (b1 b2 b3 b4 b5 b6 b7 : Byte) (rest : List Byte)
    (h : 13 < b0.toNat) :
    decodeImage i (b0 :: b1 :: b2 :: b3 :: b4 :: b5 :: b6 :: b7 :: rest) = .error (b0, i) := by
  simp only [decodeImage, decodeRecord_of_bad_tag b1 b2 b3 b4 b5 b6 b7 h]

/-- A good record at the head does not hide an error further on. -/
theorem decodeImage_cons_of_error {i : Nat} {b0 : Byte} (b1 b2 b3 b4 b5 b6 b7 : Byte) {rest : List Byte}
    {e : Byte × Nat} (h : b0.toNat ≤ 13) (hrest : decodeImage (i + 1) rest = .error e) :
    decodeImage i (b0 :: b1 :: b2 :: b3 :: b4 :: b5 :: b6 :: b7 :: rest) = .error e := by
  obtain ⟨r, hr⟩ := exists_decodeRecord_of_valid_tag b1 b2 b3 b4 b5 b6 b7 h
  simp only [decodeImage, hr, hrest]

/-- The records are looked at in ascending index: the lowest one with a bad tag is reported. -/
theorem decodeImage_of_first_bad_tag {k i : Nat} {bytes : List Byte} {b : Byte}
    (hlen : 8 * k + 8 ≤ bytes.length) (hb : bytes[8 * k]? = some b) (hbad : 13 < b.toNat)
    (hgood : ∀ j c, j < k → bytes[8 * j]? = some c → c.toNat ≤ 13) :
    decodeImage i bytes = .error (b, i + k) := by
  induction k generalizing i bytes with
  | zero =>
    obtain ⟨b0, b1, b2, b3, b4, b5, b6, b7, rest, rfl⟩ := exists_record_of_length hlen
    cases hb
    exact decodeImage_cons_of_bad_tag i b1 b2 b3 b4 b5 b6 b7 rest hbad
  | succ k ih =>
    obtain ⟨b0, b1, b2, b3, b4, b5, b6, b7, rest, rfl⟩ :=
      exists_record_of_length (Nat.le_of_add_left_le hlen)
    have hhead : b0.toNat ≤ 13 := hgood 0 b0 k.succ_pos rfl
    have hrest : decodeImage (i + 1) rest = .error (b, i + 1 + k) :=
      ih (by simpa [Nat.mul_succ] using hlen) hb fun j c hj hc => hgood (j + 1) c (Nat.succ_lt_succ hj) hc
    rw [Nat.add_right_comm] at hrest
    exact decodeImage_cons_of_error b1 b2 b3 b4 b5 b6 b7 hhead hrest

section
variable {bytes : List Byte} {s : State} (hs : s.status = .unloaded)
include hs

theorem loadImage_of_partial_record (h : bytes.length % 8 ≠ 0) :
    loadImage bytes s = failLoad .imageLengthFault bytes.length none s := by
  simp [loadImage, Config.recordSize, hs, h]

theorem loadImage_of_too_many_records (h8 : bytes.length % 8 = 0) (h : 256 < bytes.length / 8) :
    loadImage bytes s = failLoad .imageTooLongFault (bytes.length / 8) none s := by
  simp [loadImage, Config.recordSize, Config.romSize, hs, h8, h]

theorem loadImage_of_decodeImage_error {b : Byte} {k : Nat} (h8 : bytes.length % 8 = 0)
    (hn : bytes.length / 8 ≤ 256) (h : decodeImage 0 bytes = .error (b, k)) :
    loadImage bytes s = failLoad .unknownOpcodeFault b.toNat (some k) s := by
  simp [loadImage, Config.recordSize, Config.romSize, hs, h8, Nat.not_lt.mpr hn, h]

end

/-- Settles O39: each check of `loadImage` fails where those before it pass; the third by induction on the number of
good records before the bad one. -/
theorem loadFaultsInOrder : Obligations.LoadFaultsInOrder := by
  unfold Obligations.LoadFaultsInOrder
  intro bytes s hs
  refine ⟨loadImage_of_partial_record hs, loadImage_of_too_many_records hs, ?badTag⟩
  case badTag =>
    intro h8 hn k b hb hbad hgood
    have hk : 8 * k < bytes.length := (List.getElem?_eq_some_iff.mp hb).1
    have herr : decodeImage 0 bytes = .error (b, k) := by
      simpa using decodeImage_of_first_bad_tag (i := 0) (by omega) hb hbad hgood
    exact loadImage_of_decodeImage_error hs h8 hn herr

end Sys2Proof.Machine
end

section
/-!
PROOFS. The family 41_execution_cycle.md: a Step that faults, and the run loop.
-/
namespace Sys2Proof.Machine

/-! ### A Step from outside (R130, R131) -/

/-- A running machine executes the record at `PC` (41_execution_cycle.md R131). -/
theorem step_of_running {s : State} (h : s.status = .running) : step s = exec (fetch s) s := by
  simp only [step, h]

/-- A Step that is answered was taken by a running machine, and executed the record at `PC`. -/
theorem step_next {s t : State} (h : step s = .next t) : s.status = .running ∧ exec (fetch s) s = .next t := by
  rcases step_cases s with ⟨hrun, hstep⟩ | ⟨-, f, hfault⟩
  · exact ⟨hrun, hstep ▸ h⟩
  · rw [hfault] at h; cases h

/-- A machine that is not running takes no Step (10_state.md R30). -/
theorem not_exists_step_of_not_running {s : State} (h : s.status ≠ .running) : ¬∃ t, step s = .next t :=
  fun ⟨_, ht⟩ => h (step_next ht).1

/-- Every instruction answers a next state: a bad index is a recorded fault, not a stop. -/
theorem exists_exec_next (i : Instr) (s : State) : ∃ t, exec i s = .next t := by
  rcases exec_cases i s with ⟨-, hexec⟩ | ⟨c, -, -, hexec⟩
  · exact ⟨completed i s, hexec⟩
  · exact ⟨faulted c i.operand s, hexec⟩

/-- A running machine always answers a next state. -/
theorem exists_step_of_running {s : State} (h : s.status = .running) : ∃ t, step s = .next t :=
  step_of_running h ▸ exists_exec_next (fetch s) s

/-! ### A Step that faults (R135) -/

/-- An instruction that completes raises no fault. -/
theorem completed_status_ne_faulted {i : Instr} {s : State} (h : s.status ≠ .faulted) :
    (completed i s).status ≠ .faulted := by
  rcases completed_status i s with ⟨hkeep, -⟩ | ⟨hhalt, -⟩
  · rwa [hkeep]
  · rw [hhalt]; decide

/-- An instruction that makes a machine faulted took the fault of its bad index. -/
theorem exec_to_faulted {i : Instr} {s t : State} (hs : s.status ≠ .faulted) (h : exec i s = .next t)
    (ht : t.status = .faulted) :
    ∃ c, indexFault i s = some c ∧ ¬IndexOk i.operand ∧ t = faulted c i.operand s := by
  rcases exec_cases i s with ⟨-, hexec⟩ | ⟨c, hcause, hbad, hexec⟩
  · obtain rfl : completed i s = t := Host.Outcome.next.inj (hexec.symm.trans h)
    exact absurd ht (completed_status_ne_faulted hs)
  · exact ⟨c, hcause, hbad, Host.Outcome.next.inj (h.symm.trans hexec)⟩

/-- Settles O23: of all an instruction can do, only the fault of a bad index leaves the machine faulted. -/
theorem faultingStepIsPrecise : Obligations.FaultingStepIsPrecise := by
  unfold Obligations.FaultingStepIsPrecise
  intro s t hstep hfaulted
  obtain ⟨hrun, hexec⟩ := step_next hstep
  have hs : s.status ≠ .faulted := by simp [hrun]
  obtain ⟨c, hcause, hbad, ht⟩ := exec_to_faulted hs hexec hfaulted
  have hstopped : t.status ≠ .running := by simp [hfaulted]
  exact ⟨⟨c, indexCause_of_indexFault hcause, ht⟩, hbad, not_exists_step_of_not_running hstopped⟩

/-! ### The run loop (R136) -/

/-- A Step that is answered uses up one of the loop's Steps. -/
theorem runLoop_succ_of_next {s t : State} (n : Nat) (h : step s = .next t) :
    runLoop (n + 1) s = runLoop n t := by
  simp only [runLoop, h]

/-- The loop stays where no Step is taken. -/
theorem runLoop_succ_of_not_running {s : State} (n : Nat) (h : s.status ≠ .running) :
    runLoop (n + 1) s = s := by
  rcases step_cases s with ⟨hrun, -⟩ | ⟨-, f, hfault⟩
  · exact absurd hrun h
  · simp only [runLoop, hfault]

/-- Settles O30: a running machine always answers a next state, from which the loop goes on. -/
theorem runLoopStepsWhileRunning : Obligations.RunLoopStepsWhileRunning := by
  unfold Obligations.RunLoopStepsWhileRunning
  refine fun n s => ⟨fun hrun => ?running, runLoop_succ_of_not_running n⟩
  case running =>
    obtain ⟨t, ht⟩ := exists_step_of_running hrun
    exact ⟨t, ht, runLoop_succ_of_next n ht⟩

end Sys2Proof.Machine
end

section
/-!
PROOFS. The family 42_no_operand.md: `NOP`, `OUT` and `HLT`, which use their operand for nothing and so raise no fault.
-/
namespace Sys2Proof.Machine

/-! ### What each instruction leaves where no jump is pending -/

section
variable (k : S64) {s : State} (h : s.jp = false)
include h

theorem completed_nop : completed (.nop k) s = { s with pc := s.pc + 1 } :=
  controlAdvance_of_not_pending h

/-- `OUT` requests no jump, so the control advance is that of the state before it. -/
theorem completed_out :
    completed (.out k) s = { s with outTrace := s.outTrace ++ [s.a], pc := s.pc + 1 } :=
  have hjp : (emitA s).jp = false := by rw [emitA_jp, h]
  controlAdvance_of_not_pending hjp

/-- `HLT` still advances `PC` (42_no_operand.md R152). -/
theorem completed_hlt : completed (.hlt k) s = { s with pc := s.pc + 1, status := .halted } := by
  simp only [completed, controlAdvance_of_not_pending h]

end

/-! ### The statements -/

/-- Settles O1: NOP has no index to be bad, so it completes, and its effect is nothing. -/
theorem nopOnlyAdvances : Obligations.NopOnlyAdvances := by
  unfold Obligations.NopOnlyAdvances
  intro k s hjp
  have hexec : exec (.nop k) s = .next (completed (.nop k) s) := exec_of_no_fault (.inl rfl)
  exact ⟨rfl, by rw [hexec, completed_nop k hjp]⟩

/-- Settles O2: OUT has no index to be bad, so it completes, and its effect is `Emit(A)`. -/
theorem outEmitsAccumulator : Obligations.OutEmitsAccumulator := by
  unfold Obligations.OutEmitsAccumulator
  intro k s hjp
  have hexec : exec (.out k) s = .next (completed (.out k) s) := exec_of_no_fault (.inl rfl)
  exact ⟨rfl, by rw [hexec, completed_out k hjp]⟩

/-- Settles O3: HLT has no index to be bad, so it completes, and the state it leaves is not running. -/
theorem hltAdvancesThenHalts : Obligations.HltAdvancesThenHalts := by
  unfold Obligations.HltAdvancesThenHalts
  intro k s hjp
  have hexec : exec (.hlt k) s = .next (completed (.hlt k) s) := exec_of_no_fault (.inl rfl)
  refine ⟨rfl, ?advance, ?noStep⟩
  case advance => rw [hexec, completed_hlt k hjp]
  case noStep => exact not_exists_step_of_not_running Status.noConfusion

end Sys2Proof.Machine
end

section
/-!
PROOFS. The family 43_load_store.md: `LDA`, `STA`, `LDI` and `LDR`. None of them requests a jump, so each that completes
advances `PC` by 1.
-/
namespace Sys2Proof.Machine

/-! ### What each instruction leaves where no jump is pending -/

section
variable {s : State} (h : s.jp = false)
include h

/-- The control advance after a write of the accumulator. -/
theorem controlAdvance_setA (v : S64) :
    controlAdvance (setA v s) = { s with a := v, pc := s.pc + 1 } :=
  have hjp : (setA v s).jp = false := by rw [setA_jp, h]
  controlAdvance_of_not_pending hjp

/-- The control advance after a write of a RAM cell. -/
theorem controlAdvance_ramWrite (k : Nat) (v : S64) :
    controlAdvance (ramWrite k v s) = { ramWrite k v s with pc := s.pc + 1 } :=
  have hjp : (ramWrite k v s).jp = false := by rw [ramWrite_jp, h]
  controlAdvance_of_not_pending hjp

theorem completed_lda (k : S64) :
    completed (.lda k) s = { s with a := ramRead s k.toInt.toNat, pc := s.pc + 1 } :=
  controlAdvance_setA h _

theorem completed_sta (k : S64) :
    completed (.sta k) s = { ramWrite k.toInt.toNat s.a s with pc := s.pc + 1 } :=
  controlAdvance_ramWrite h _ _

theorem completed_ldi (v : S64) : completed (.ldi v) s = { s with a := v, pc := s.pc + 1 } :=
  controlAdvance_setA h v

theorem completed_ldr (k : S64) :
    completed (.ldr k) s = { s with a := (romRead s k.toInt.toNat).operand, pc := s.pc + 1 } :=
  controlAdvance_setA h _

end

/-! ### The statements -/

/-- Settles O4: a good index completes with the cell in the accumulator, a bad one is LDA's own fault. -/
theorem ldaLoadsCell : Obligations.LdaLoadsCell := by
  unfold Obligations.LdaLoadsCell
  refine fun k s hjp => ⟨rfl, fun hk => ?loads, fun hk => ?faults⟩
  case loads =>
    have hexec : exec (.lda k) s = .next (completed (.lda k) s) := exec_of_no_fault (.inr hk)
    rw [hexec, completed_lda hjp]
  case faults =>
    have hcause : indexFault (.lda k) s = some .ramIndexFault := rfl
    exact exec_of_bad_index hcause hk

/-- Settles O5: a good index completes with the effect of `MemWrite`, whose laws give the cell written, the others and
the frame; a bad one is STA's own fault. -/
theorem staStoresAccumulator : Obligations.StaStoresAccumulator := by
  unfold Obligations.StaStoresAccumulator
  refine fun k s hjp hwf => ⟨rfl, fun hk => ?stores, fun hk => ?faults⟩
  case stores =>
    have hexec : exec (.sta k) s = .next (completed (.sta k) s) := exec_of_no_fault (.inr hk)
    rw [completed_sta hjp] at hexec
    refine ⟨_, hexec, ?same, fun j hne => ?other, ?frame⟩
    case same => exact ramRead_ramWrite_same hwf
    case other => exact ramRead_ramWrite_other hne hwf
    case frame => exact congrArg (fun t : State => { t with pc := s.pc + 1 }) (ramWrite_frame _ s.a s)
  case faults =>
    have hcause : indexFault (.sta k) s = some .ramIndexFault := rfl
    exact exec_of_bad_index hcause hk

/-- Settles O6: LDI's operand is a literal, never a bad index, so it completes with that literal in the accumulator. -/
theorem ldiLoadsLiteral : Obligations.LdiLoadsLiteral := by
  unfold Obligations.LdiLoadsLiteral
  intro v s hjp
  have hexec : exec (.ldi v) s = .next (completed (.ldi v) s) := exec_of_no_fault (.inl rfl)
  exact ⟨rfl, by rw [hexec, completed_ldi hjp]⟩

/-- Settles O7: a good index completes with the record's operand in the accumulator, a bad one is LDR's own fault. -/
theorem ldrLoadsRecordOperand : Obligations.LdrLoadsRecordOperand := by
  unfold Obligations.LdrLoadsRecordOperand
  refine fun k s hjp => ⟨rfl, fun hk => ?loads, fun hk => ?faults⟩
  case loads =>
    have hexec : exec (.ldr k) s = .next (completed (.ldr k) s) := exec_of_no_fault (.inr hk)
    rw [hexec, completed_ldr hjp]
  case faults =>
    have hcause : indexFault (.ldr k) s = some .romIndexFault := rfl
    exact exec_of_bad_index hcause hk

end Sys2Proof.Machine
end

section
/-!
PROOFS. The family 44_arithmetic.md: the ALU, and `ADD`, `SUB`, `ADI` and `ADR`, which are ALU calls followed by the
control advance.
-/
namespace Sys2Proof.Machine

/-! ### One ALU call, by its exact result (R170, R171) -/

/-- `fits64` says whether the exact result is in the signed 64-bit range (00_scope.md R8). -/
theorem fits64_iff (z : Int) : fits64 z = true ↔ -2 ^ 63 ≤ z ∧ z ≤ 2 ^ 63 - 1 := by
  simp [fits64]

/-- `CARRY` says that the exact result does not fit. -/
theorem aluResult_carry_iff (z : Int) (s : State) :
    (aluResult z s).carry = true ↔ ¬(-2 ^ 63 ≤ z ∧ z ≤ 2 ^ 63 - 1) := by
  rw [aluResult_carry, Bool.not_eq_true', ← Bool.not_eq_true, fits64_iff]

/-- `ZERO` says that the narrowed result, the new accumulator, is 0. -/
theorem aluResult_zero_iff (z : Int) (s : State) :
    (aluResult z s).zero = true ↔ (aluResult z s).a.toInt = 0 := by
  rw [aluResult_zero, aluResult_a, beq_iff_eq, ← BitVec.toInt_inj]
  rfl

/-- The frame of an ALU call: with the accumulator and the flags put back, the state is the former state. -/
theorem aluResult_frame (z : Int) (s : State) :
    { aluResult z s with a := s.a, carry := s.carry, zero := s.zero } = s := rfl

/-- Settles O16: `AluAdd` is the ALU call on the exact sum. -/
theorem aluAddIsExactThenWrapped : Obligations.AluAddIsExactThenWrapped := by
  unfold Obligations.AluAddIsExactThenWrapped
  exact fun x s =>
    ⟨wrap64_congr (s.a.toInt + x.toInt), aluResult_carry_iff _ s, aluResult_zero_iff _ s, aluResult_frame _ s⟩

/-- Settles O17: `AluSub` is the ALU call on the exact difference. -/
theorem aluSubIsExactThenWrapped : Obligations.AluSubIsExactThenWrapped := by
  unfold Obligations.AluSubIsExactThenWrapped
  exact fun x s =>
    ⟨wrap64_congr (s.a.toInt - x.toInt), aluResult_carry_iff _ s, aluResult_zero_iff _ s, aluResult_frame _ s⟩

/-! ### The ALU in operations on words -/

/-- The exact sum does not fit where the addition of the words overflows. -/
theorem not_fits64_add (x y : S64) : (!fits64 (x.toInt + y.toInt)) = BitVec.saddOverflow x y := by
  rw [Bool.eq_iff_iff, Bool.not_eq_true', ← Bool.not_eq_true, fits64_iff]
  simp only [BitVec.saddOverflow, Bool.or_eq_true, decide_eq_true_eq]
  omega

/-- The exact difference does not fit where the subtraction of the words overflows. -/
theorem not_fits64_sub (x y : S64) : (!fits64 (x.toInt - y.toInt)) = BitVec.ssubOverflow x y := by
  rw [Bool.eq_iff_iff, Bool.not_eq_true', ← Bool.not_eq_true, fits64_iff]
  simp only [BitVec.ssubOverflow, Bool.or_eq_true, decide_eq_true_eq]
  omega

/-- The difference of two words is 0 where they are equal. -/
theorem sub_beq_zero (x y : S64) : (x - y == 0) = (x == y) := by
  rw [Bool.eq_iff_iff, beq_iff_eq, beq_iff_eq, sub_eq_zero]

theorem aluAdd_eq (x : S64) (s : State) :
    aluAdd x s = { s with a := s.a + x, carry := BitVec.saddOverflow s.a x, zero := s.a + x == 0 } := by
  rw [aluAdd, aluResult, wrap64_add, not_fits64_add]

theorem aluSub_eq (x : S64) (s : State) :
    aluSub x s = { s with a := s.a - x, carry := BitVec.ssubOverflow s.a x, zero := s.a == x } := by
  rw [aluSub, aluResult, wrap64_sub, not_fits64_sub, sub_beq_zero]

/-! ### What each instruction leaves where no jump is pending -/

section
variable {s : State} (h : s.jp = false)
include h

/-- An ALU call requests no jump, so the control advance after it goes to the next record. -/
theorem controlAdvance_aluResult (z : Int) :
    controlAdvance (aluResult z s) = { aluResult z s with pc := s.pc + 1 } :=
  have hjp : (aluResult z s).jp = false := by rw [aluResult_jp, h]
  controlAdvance_of_not_pending hjp

theorem controlAdvance_aluAdd (x : S64) :
    controlAdvance (aluAdd x s) = { s with
      a := s.a + x, carry := BitVec.saddOverflow s.a x, zero := s.a + x == 0, pc := s.pc + 1 } := by
  have hadvance : controlAdvance (aluAdd x s) = { aluAdd x s with pc := s.pc + 1 } :=
    controlAdvance_aluResult h _
  rw [hadvance, aluAdd_eq]

theorem controlAdvance_aluSub (x : S64) :
    controlAdvance (aluSub x s) = { s with
      a := s.a - x, carry := BitVec.ssubOverflow s.a x, zero := s.a == x, pc := s.pc + 1 } := by
  have hadvance : controlAdvance (aluSub x s) = { aluSub x s with pc := s.pc + 1 } :=
    controlAdvance_aluResult h _
  rw [hadvance, aluSub_eq]

end

/-! ### The statements -/

/-- An instruction whose operand is an index completes on a good one and takes its own fault on a bad one. -/
theorem exec_of_indexFault {i : Instr} {s : State} {c : FaultCause} (h : indexFault i s = some c) :
    (IndexOk i.operand → exec i s = .next (completed i s)) ∧
      (¬IndexOk i.operand → exec i s = .next (faulted c i.operand s)) :=
  ⟨fun hk => exec_of_no_fault (.inr hk), exec_of_bad_index h⟩

/-- Settles O8: a good index completes with `AluAdd` of the cell, a bad one is ADD's own fault. -/
theorem addAddsCell : Obligations.AddAddsCell := by
  unfold Obligations.AddAddsCell
  intro k s hjp
  have hcause : indexFault (.add k) s = some .ramIndexFault := rfl
  obtain ⟨hgood, hbad⟩ := exec_of_indexFault hcause
  have hcompleted : completed (.add k) s = _ := controlAdvance_aluAdd hjp (ramRead s k.toInt.toNat)
  exact ⟨rfl, fun hk => by rw [hgood hk, hcompleted], hbad⟩

/-- Settles O9: a good index completes with `AluSub` of the cell, a bad one is SUB's own fault. -/
theorem subSubtractsCell : Obligations.SubSubtractsCell := by
  unfold Obligations.SubSubtractsCell
  intro k s hjp
  have hcause : indexFault (.sub k) s = some .ramIndexFault := rfl
  obtain ⟨hgood, hbad⟩ := exec_of_indexFault hcause
  have hcompleted : completed (.sub k) s = _ := controlAdvance_aluSub hjp (ramRead s k.toInt.toNat)
  exact ⟨rfl, fun hk => by rw [hgood hk, hcompleted], hbad⟩

/-- Settles O10: ADI's operand is a literal, never a bad index, so it completes with `AluAdd` of that literal. -/
theorem adiAddsLiteral : Obligations.AdiAddsLiteral := by
  unfold Obligations.AdiAddsLiteral
  intro v s hjp
  have hexec : exec (.adi v) s = .next (completed (.adi v) s) := exec_of_no_fault (.inl rfl)
  have hcompleted : completed (.adi v) s = _ := controlAdvance_aluAdd hjp v
  exact ⟨rfl, by rw [hexec, hcompleted]⟩

/-- Settles O11: a good index completes with `AluAdd` of the record's operand, a bad one is ADR's own fault. -/
theorem adrAddsRecordOperand : Obligations.AdrAddsRecordOperand := by
  unfold Obligations.AdrAddsRecordOperand
  intro k s hjp
  have hcause : indexFault (.adr k) s = some .romIndexFault := rfl
  obtain ⟨hgood, hbad⟩ := exec_of_indexFault hcause
  have hcompleted : completed (.adr k) s = _ := controlAdvance_aluAdd hjp (romRead s k.toInt.toNat).operand
  exact ⟨rfl, fun hk => by rw [hgood hk, hcompleted], hbad⟩

end Sys2Proof.Machine
end

section
/-!
PROOFS. The family 45_control_transfer.md: `JMP`, a jump that is always taken.
-/
namespace Sys2Proof.Machine

/-- A good index is the value of its own low 8 bits, so a jump register holds it whole. -/
theorem IndexOk.toNat_ofNat {k : S64} (h : IndexOk k) :
    ((BitVec.ofNat 8 k.toInt.toNat).toNat : Int) = k.toInt := by
  have hlt : k.toInt.toNat < 2 ^ 8 := h.lt
  obtain ⟨hnonneg, -⟩ := h
  rw [BitVec.toNat_ofNat, Nat.mod_eq_of_lt hlt, Int.toNat_of_nonneg hnonneg]

/-- The control advance takes the jump that `JMP` requested. -/
theorem completed_jmp (k : S64) (s : State) :
    completed (.jmp k) s = { s with
      pc := .ofNat 8 k.toInt.toNat, jr := .ofNat 8 k.toInt.toNat, jp := false } :=
  controlAdvance_requestJump _ s

/-- Settles O12: a good target completes with the jump taken, a bad one is JMP's own fault. -/
theorem jmpJumpsToTarget : Obligations.JmpJumpsToTarget := by
  unfold Obligations.JmpJumpsToTarget
  intro k s
  have hcause : indexFault (.jmp k) s = some .jumpTargetFault := rfl
  obtain ⟨hgood, hbad⟩ := exec_of_indexFault hcause
  refine ⟨rfl, fun hk => ⟨.ofNat 8 k.toInt.toNat, hk.toNat_ofNat, ?jumps⟩, hbad⟩
  case jumps => rw [hgood hk, completed_jmp]

end Sys2Proof.Machine
end

section
/-!
PROOFS. The codec as a round trip (40_codec_operations.md R110, R112, 30_encoding.md R81, R82): ENCODE and DECODE are
inverse, and the record word of the opcode table is made of the same 8 bytes.
-/
namespace Sys2Proof

/-! ### The operand field and its seven bytes -/

/-- The opcode map gives an instruction back from its own tag and operand (30_encoding.md R83, R84). -/
@[simp] theorem ofTag_tagOf (i : Instr) : ofTag (tagOf i) i.operand = some i := by
  cases i <;> rfl

/-- The seven operand bytes of a record are the low 56 bits of the operand (40_codec_operations.md R110). -/
theorem operandField_extract (v : S64) :
    operandField (v.extractLsb' 48 8) (v.extractLsb' 40 8) (v.extractLsb' 32 8) (v.extractLsb' 24 8)
      (v.extractLsb' 16 8) (v.extractLsb' 8 8) (v.extractLsb' 0 8) = v.setWidth 56 := by
  apply BitVec.eq_of_toNat_eq
  rw [operandField_toNat]
  simp only [BitVec.extractLsb'_toNat, Nat.shiftRight_eq_div_pow, BitVec.toNat_setWidth]
  omega

/-- The operand field determines its seven bytes. -/
theorem operandField_inj {b1 b2 b3 b4 b5 b6 b7 c1 c2 c3 c4 c5 c6 c7 : Byte}
    (h : operandField b1 b2 b3 b4 b5 b6 b7 = operandField c1 c2 c3 c4 c5 c6 c7) :
    [b1, b2, b3, b4, b5, b6, b7] = [c1, c2, c3, c4, c5, c6, c7] := by
  have hnat := congrArg BitVec.toNat h
  simp only [operandField_toNat] at hnat
  simp only [List.cons.injEq, and_true, ← BitVec.toNat_inj]
  omega

/-- The low 56 bits of a sign-extended field are the field. -/
theorem setWidth_sext56 (u : BitVec 56) : (sext56 u).setWidth 56 = u := by
  refine BitVec.eq_of_getLsbD_eq fun k hk => ?_
  have hk64 : k < 64 := hk.trans (by decide)
  simp only [sext56, BitVec.getLsbD_setWidth, BitVec.getLsbD_signExtend, hk, hk64, decide_true, Bool.true_and, if_true]

/-- The low 56 bits of an operand as a number: its residue modulo `2^56`, also for a negative operand. -/
theorem toNat_setWidth_operand (v : S64) : ((v.setWidth 56).toNat : Int) = v.toInt % 2 ^ 56 := by
  rw [BitVec.toNat_setWidth, BitVec.toInt_eq_toNat_cond]
  split <;> omega

/-- An operand that fits is the sign extension of its low 56 bits. -/
theorem sext56_setWidth_of_fits {v : S64} (h : OperandFits v) : sext56 (v.setWidth 56) = v := by
  apply BitVec.eq_of_toInt_eq
  have hlow := toNat_setWidth_operand v
  simp only [OperandFits, Config.operandMin, Config.operandMax] at h
  rw [sext56_toInt]
  split <;> omega

/-! ### DECODE and ENCODE are inverse (R112) -/

/-- DECODE reads a well-formed instruction back from the head of a buffer. -/
theorem decode_bytes_append {i : Instr} (h : i.WellFormed) (rest : List Byte) :
    decode (i.bytes ++ rest) = .ok (i, rest) := by
  have hoperand : sext56 (i.operand.setWidth 56) = i.operand := sext56_setWidth_of_fits h
  refine decode_of_ok rest ?_
  simp only [decodeRecord, operandField_extract, hoperand, ofTag_tagOf]

/-- ENCODE gives back the 8 bytes an instruction was decoded from. -/
theorem bytes_of_decodeRecord {b0 b1 b2 b3 b4 b5 b6 b7 : Byte} {i : Instr}
    (h : decodeRecord b0 b1 b2 b3 b4 b5 b6 b7 = .ok i) : i.bytes = [b0, b1, b2, b3, b4, b5, b6, b7] := by
  obtain ⟨htag, hoperand, -⟩ := decodeRecord_ok h
  have hfield := operandField_extract i.operand
  rw [hoperand, setWidth_sext56, ← hoperand] at hfield
  exact congrArg₂ List.cons htag (operandField_inj hfield)

/-- Settles O42: both directions rest on the operand field, whose sign extension is undone by taking its low 56 bits. -/
theorem decodeEncodeRoundTrip : Obligations.DecodeEncodeRoundTrip := by
  unfold Obligations.DecodeEncodeRoundTrip
  refine ⟨fun i hi => ?decodeEncode, fun b0 b1 b2 b3 b4 b5 b6 b7 hvalid => ?encodeDecode⟩
  case decodeEncode =>
    exact ⟨i.bytes, encode_of_wellFormed hi, i.length_bytes, decode_bytes_append hi []⟩
  case encodeDecode =>
    obtain ⟨i, hi⟩ := exists_decodeRecord_of_valid_tag b1 b2 b3 b4 b5 b6 b7 hvalid
    obtain ⟨-, -, hwf⟩ := decodeRecord_ok hi
    exact ⟨i, decode_of_ok [] hi, hwf, by rw [encode_of_wellFormed hwf, bytes_of_decodeRecord hi]⟩

/-! ### The pack port (R110) -/

theorem operandFits_iff (v : S64) : OperandFits v ↔ -2 ^ 55 ≤ v.toInt ∧ v.toInt ≤ 2 ^ 55 - 1 := by
  simp [OperandFits, Config.operandMin, Config.operandMax]

theorem pack_of_fits {t : Byte} {v : S64} (ht : t.toNat ≤ 13) (hv : OperandFits v) :
    pack t v = .ok (recordBytes t v) := by
  simp only [pack, Config.lastTag, if_pos ht, if_pos hv]

theorem pack_of_not_fits {t : Byte} {v : S64} (ht : t.toNat ≤ 13) (hv : ¬OperandFits v) :
    pack t v = .error (.operandRange v) := by
  simp only [pack, Config.lastTag, if_pos ht, if_neg hv]

theorem pack_of_bad_tag {t : Byte} (v : S64) (ht : 13 < t.toNat) : pack t v = .error (.unknownOpcode t) := by
  simp [pack, Config.lastTag, Nat.not_le.mpr ht]

/-- Settles O43: the three answers of `pack`; the bytes it gives are those of `operandField_extract`. -/
theorem encodePacksTagAndOperand : Obligations.EncodePacksTagAndOperand := by
  unfold Obligations.EncodePacksTagAndOperand
  intro t v
  refine ⟨fun ht hmin hmax => ⟨_, _, _, _, _, _, _, pack_of_fits ht ((operandFits_iff v).mpr ⟨hmin, hmax⟩), ?value⟩,
    fun ht hv => ?range, pack_of_bad_tag v, fun _ => rfl⟩
  case value => rw [← operandField_toNat, operandField_extract, toNat_setWidth_operand]
  case range =>
    refine pack_of_not_fits ht fun hfits => ?_
    obtain ⟨hmin, hmax⟩ := (operandFits_iff v).mp hfits
    omega

/-! ### The record word of the opcode table (30_encoding.md R81) -/

/-- The record word of an instruction (00_scope.md R7) has that instruction's bytes. -/
theorem wordBytes_of_tag_operand (t : Byte) (v : S64) :
    wordBytes (t.toNat * 2 ^ 56 + v.toNat % 2 ^ 56) = recordBytes t v := by
  have ht := t.isLt
  simp only [wordBytes, recordBytes, List.cons.injEq, and_true, ← BitVec.toNat_inj, BitVec.toNat_ofNat,
    BitVec.extractLsb'_toNat, Nat.shiftRight_eq_div_pow]
  omega

/-- Settles O45: the word is below `2^64`, its bytes are the instruction's, and those decode to it. -/
theorem tableWordDecodes : Obligations.TableWordDecodes := by
  unfold Obligations.TableWordDecodes
  intro i hi
  have hlow : (i.operand.toInt % 2 ^ 56).toNat = i.operand.toNat % 2 ^ 56 := by
    rw [← toNat_setWidth_operand, Int.toNat_natCast, BitVec.toNat_setWidth]
  have htag := tagOf_le i
  have hword : ((tagOf i).toNat * 2 ^ 56 + i.operand.toNat % 2 ^ 56) % 2 ^ 64 =
      (tagOf i).toNat * 2 ^ 56 + i.operand.toNat % 2 ^ 56 := Nat.mod_eq_of_lt (by omega)
  have hdecode : decode (recordBytes (tagOf i) i.operand) = .ok (i, []) := decode_bytes_append hi []
  rw [hlow, decodeTableWord, hword, wordBytes_of_tag_operand, hdecode]

/-- Settles O46: each of the six closed words is run through the decoder. -/
theorem sampleWordsDecode : Obligations.SampleWordsDecode := by
  unfold Obligations.SampleWordsDecode
  exact ⟨rfl, rfl, rfl, rfl, rfl, rfl⟩

end Sys2Proof
end

section
/-!
PROOFS. LOADIMAGE (40_codec_operations.md R113, R115, R117): the ROM a load builds, read record by record, and the Steps
that run from it.
-/
namespace Sys2Proof

/-! ### DECODE of a buffer -/

/-- A buffer that DECODE reads is a good record and the bytes after it. -/
theorem exists_record_of_decode {bytes rest : List Byte} {i : Instr} (h : decode bytes = .ok (i, rest)) :
    ∃ b0 b1 b2 b3 b4 b5 b6 b7, bytes = b0 :: b1 :: b2 :: b3 :: b4 :: b5 :: b6 :: b7 :: rest ∧
      decodeRecord b0 b1 b2 b3 b4 b5 b6 b7 = .ok i := by
  unfold decode at h
  split at h
  · split at h
    · next hr => cases h; exact ⟨_, _, _, _, _, _, _, _, rfl, hr⟩
    · cases h
  · cases h

/-- What DECODE gives has an encoding. -/
theorem wellFormed_of_decode {bytes rest : List Byte} {i : Instr} (h : decode bytes = .ok (i, rest)) :
    i.WellFormed := by
  obtain ⟨_, _, _, _, _, _, _, _, -, hr⟩ := exists_record_of_decode h
  obtain ⟨-, -, hwf⟩ := decodeRecord_ok hr
  exact hwf

/-- DECODE has read the first 8 bytes of its buffer. -/
theorem length_and_rest_of_decode {bytes rest : List Byte} {i : Instr} (h : decode bytes = .ok (i, rest)) :
    bytes.length = rest.length + 8 ∧ rest = bytes.drop 8 := by
  obtain ⟨_, _, _, _, _, _, _, _, rfl, -⟩ := exists_record_of_decode h
  exact ⟨rfl, rfl⟩

end Sys2Proof

namespace Sys2Proof.Machine

/-! ### The records of an image -/

theorem decodeImage_of_short {bytes : List Byte} (i : Nat) (h : bytes.length < 8) :
    decodeImage i bytes = .ok [] := by
  unfold decodeImage
  split
  · simp only [List.length_cons] at h
    omega
  · rfl

/-- A good record at the head is the first of the records. -/
theorem decodeImage_of_decode {i : Nat} {bytes rest : List Byte} {r : Instr} {rs : List Instr}
    (h : decode bytes = .ok (r, rest)) (hrest : decodeImage (i + 1) rest = .ok rs) :
    decodeImage i bytes = .ok (r :: rs) := by
  obtain ⟨_, _, _, _, _, _, _, _, rfl, hr⟩ := exists_record_of_decode h
  simp only [decodeImage, hr, hrest]

/-- Everything an image without a bad tag can be: too short for a record, or a good record and the records after it. -/
theorem decodeImage_ok_cases {i : Nat} {bytes : List Byte} {rs : List Instr} (h : decodeImage i bytes = .ok rs) :
    (bytes.length < 8 ∧ rs = []) ∨
      ∃ r rest rs', decode bytes = .ok (r, rest) ∧ decodeImage (i + 1) rest = .ok rs' ∧ rs = r :: rs' := by
  by_cases hlen : bytes.length < 8
  · rw [decodeImage_of_short i hlen] at h
    cases h
    exact .inl ⟨hlen, rfl⟩
  · obtain ⟨b0, b1, b2, b3, b4, b5, b6, b7, rest, rfl⟩ := exists_record_of_length (Nat.not_lt.mp hlen)
    simp only [decodeImage] at h
    split at h
    · cases h
    · next r hr =>
      split at h
      · cases h
      · next rs' hrs => cases h; exact .inr ⟨r, rest, rs', decode_of_ok rest hr, hrs, rfl⟩

/-- An image without a bad tag has a record for every 8 bytes. -/
theorem length_of_decodeImage {i : Nat} {bytes : List Byte} {rs : List Instr} (h : decodeImage i bytes = .ok rs) :
    rs.length = bytes.length / 8 := by
  induction rs generalizing i bytes with
  | nil =>
    rcases decodeImage_ok_cases h with ⟨hlen, -⟩ | ⟨_, _, _, -, -, hcons⟩
    · simp only [List.length_nil]; omega
    · cases hcons
  | cons r rs ih =>
    rcases decodeImage_ok_cases h with ⟨-, hnil⟩ | ⟨_, rest, _, hhead, htail, hcons⟩
    · cases hnil
    · cases hcons
      have htailLen := ih htail
      obtain ⟨hlen, -⟩ := length_and_rest_of_decode hhead
      rw [List.length_cons]
      omega

/-- The `k`-th record of an image is what DECODE reads from its `k`-th 8 bytes. -/
theorem decode_drop_of_decodeImage {i k : Nat} {bytes : List Byte} {rs : List Instr} {r : Instr}
    (h : decodeImage i bytes = .ok rs) (hk : rs[k]? = some r) :
    decode (bytes.drop (8 * k)) = .ok (r, bytes.drop (8 * k + 8)) := by
  induction k generalizing i bytes rs with
  | zero =>
    rcases decodeImage_ok_cases h with ⟨-, rfl⟩ | ⟨_, rest, _, hhead, -, rfl⟩
    · cases hk
    · cases hk
      obtain ⟨-, hrest⟩ := length_and_rest_of_decode hhead
      rw [hrest] at hhead
      exact hhead
  | succ k ih =>
    rcases decodeImage_ok_cases h with ⟨-, rfl⟩ | ⟨_, rest, _, hhead, htail, rfl⟩
    · cases hk
    · obtain ⟨-, rfl⟩ := length_and_rest_of_decode hhead
      have hdrop := ih htail hk
      rw [List.drop_drop, List.drop_drop, ← Nat.add_assoc, Nat.add_comm 8 (8 * k)] at hdrop
      exact hdrop

/-- Every record of an image has an encoding (10_state.md R37). -/
theorem wellFormed_of_mem_decodeImage {i : Nat} {bytes : List Byte} {rs : List Instr} {r : Instr}
    (h : decodeImage i bytes = .ok rs) (hr : r ∈ rs) : r.WellFormed := by
  obtain ⟨k, hk⟩ := List.mem_iff_getElem?.mp hr
  exact wellFormed_of_decode (decode_drop_of_decodeImage h hk)

/-- An image with good tags only decodes. -/
theorem exists_decodeImage_of_valid_tags {n i : Nat} {bytes : List Byte} (hlen : bytes.length < 8 * (n + 1))
    (h : ∀ k b, bytes[8 * k]? = some b → b.toNat ≤ 13) : ∃ rs, decodeImage i bytes = .ok rs := by
  induction n generalizing i bytes with
  | zero => exact ⟨[], decodeImage_of_short i hlen⟩
  | succ n ih =>
    by_cases hshort : bytes.length < 8
    · exact ⟨[], decodeImage_of_short i hshort⟩
    · obtain ⟨b0, b1, b2, b3, b4, b5, b6, b7, rest, rfl⟩ := exists_record_of_length (Nat.not_lt.mp hshort)
      have hhead : b0.toNat ≤ 13 := h 0 b0 rfl
      obtain ⟨r, hr⟩ := exists_decodeRecord_of_valid_tag b1 b2 b3 b4 b5 b6 b7 hhead
      simp only [List.length_cons] at hlen
      have hrest : ∃ rs, decodeImage (i + 1) rest = .ok rs := ih (by omega) fun k b hb => h (k + 1) b hb
      obtain ⟨rs, hrs⟩ := hrest
      exact ⟨r :: rs, decodeImage_of_decode (decode_of_ok rest hr) hrs⟩

/-- The records of a concatenation of encodings are the encoded instructions. -/
theorem decodeImage_flatMap_bytes {p : List Instr} (i : Nat) (h : ∀ r ∈ p, r.WellFormed) :
    decodeImage i (p.flatMap Instr.bytes) = .ok p := by
  induction p generalizing i with
  | nil => rfl
  | cons r p ih =>
    obtain ⟨hr, hp⟩ := List.forall_mem_cons.mp h
    exact decodeImage_of_decode (decode_bytes_append hr _) (ih (i + 1) hp)

/-! ### The loaded machine -/

/-- The machine after a load of the records `rs` (`loadImage_of_decodeImage_ok`). -/
def loaded (rs : List Instr) (s : State) : State :=
  { s with rom := romOf 0 rs, status := .running }

theorem loadImage_of_decodeImage_ok {bytes : List Byte} {s : State} {rs : List Instr} (hs : s.status = .unloaded)
    (h8 : bytes.length % 8 = 0) (hn : bytes.length / 8 ≤ 256) (h : decodeImage 0 bytes = .ok rs) :
    loadImage bytes s = .next (loaded rs s) := by
  simp [loadImage, Config.recordSize, Config.romSize, hs, h8, Nat.not_lt.mpr hn, h, loaded]

/-- A load that leaves the machine running has built the ROM of the image's records. -/
theorem loadImage_to_running {bytes : List Byte} {s t : State} (h : loadImage bytes s = .next t)
    (ht : t.status = .running) : ∃ rs, decodeImage 0 bytes = .ok rs ∧ t = loaded rs s := by
  obtain ⟨-, hfail | ⟨rs, -, -, hrs, hload⟩⟩ := loadImage_next h
  · obtain ⟨_, _, _, rfl⟩ := hfail
    cases ht
  · exact ⟨rs, hrs, hload⟩

/-- A loaded ROM, read at any index: the image's record, or the padding. -/
theorem read_romOf_zero (rs : List Instr) (k : Nat) :
    Memory.read romDefault (romOf 0 rs) k = (rs[k]?).getD (.hlt 0) := by
  simpa [romDefault] using read_romOf 0 k rs

theorem romRead_loaded (rs : List Instr) (s : State) (k : Nat) :
    romRead (loaded rs s) k = (rs[k]?).getD (.hlt 0) :=
  read_romOf_zero rs k

/-! ### The statements -/

/-- Settles O48: SERIALIZE concatenates the encodings, their records are the instructions, and those build the ROM. -/
theorem serializeThenLoadRoundTrip : Obligations.SerializeThenLoadRoundTrip := by
  unfold Obligations.SerializeThenLoadRoundTrip
  intro p s hs hlen hp
  have hbytes : (p.flatMap Instr.bytes).length = 8 * p.length := length_flatMap_bytes p
  have hload : loadImage (p.flatMap Instr.bytes) s = .next (loaded p s) :=
    loadImage_of_decodeImage_ok hs (by omega) (by omega) (decodeImage_flatMap_bytes 0 hp)
  exact ⟨_, _, serialize_of_wellFormed hp, hload, rfl, romRead_loaded p s⟩

/-- Settles O38: good tags give the records, which DECODE reads one by one and the padding follows. -/
theorem loadBuildsTheRom : Obligations.LoadBuildsTheRom := by
  unfold Obligations.LoadBuildsTheRom
  intro bytes s hs h8 hlen htags
  obtain ⟨rs, hrs⟩ : ∃ rs, decodeImage 0 bytes = .ok rs :=
    exists_decodeImage_of_valid_tags (n := 256) (by omega) htags
  have hcount : rs.length = bytes.length / 8 := length_of_decodeImage hrs
  refine ⟨loaded rs s, loadImage_of_decodeImage_ok hs h8 (by omega) hrs, rfl, rfl,
    fun k hk => ?record, fun k hk => ?padding⟩
  case record =>
    have hget : rs[k]? = some rs[k] := List.getElem?_eq_getElem (by omega)
    rw [romRead_loaded, hget, Option.getD_some]
    exact decode_drop_of_decodeImage hrs hget
  case padding =>
    have hnone : rs[k]? = none := List.getElem?_eq_none (by omega)
    rw [romRead_loaded, hnone, Option.getD_none]

/-- Settles O28: the record at `PC` of the loaded ROM is what DECODE reads from the image there. -/
theorem stepRunsTheDecodedBytes : Obligations.StepRunsTheDecodedBytes := by
  unfold Obligations.StepRunsTheDecodedBytes
  intro bytes rest s t u i hload ht hrom hu hdecode
  obtain ⟨rs, hrs, rfl⟩ := loadImage_to_running hload ht
  have hcount : rs.length = bytes.length / 8 := length_of_decodeImage hrs
  obtain ⟨hlen, -⟩ := length_and_rest_of_decode hdecode
  rw [List.length_drop] at hlen
  have hget : rs[u.pc.toNat]? = some rs[u.pc.toNat] := List.getElem?_eq_getElem (by omega)
  have hrecord : rs[u.pc.toNat] = i := by
    have hsame := (decode_drop_of_decodeImage hrs hget).symm.trans hdecode
    cases hsame
    rfl
  have hfetch : fetch u = i := by
    rw [fetch_of_running hu, hrom, loaded, read_romOf_zero, hget, hrecord, Option.getD_some]
  exact ⟨wellFormed_of_decode hdecode, hfetch, hfetch ▸ step_of_running hu⟩

/-- Settles O40: the cases of `loadImage`. -/
theorem loadWithoutResetIsRefused : Obligations.LoadWithoutResetIsRefused := by
  unfold Obligations.LoadWithoutResetIsRefused
  intro bytes s hs
  rcases loadImage_cases bytes s with ⟨hunloaded, -⟩ | ⟨-, hrefused⟩
  · exact absurd hunloaded hs
  · exact hrefused

end Sys2Proof.Machine
end

section
/-!
PROOFS. The machine's invariant (10_state.md R31, R36, R37, 60_exceptions.md R199, R200): reset establishes it, a load and
every Step keep it, so it holds along every run.
-/
namespace Sys2Proof.Machine

/-! ### Every Step keeps the invariant -/

/-- The fault of a bad index is an execution fault (60_exceptions.md R190). -/
theorem code_le_of_indexCause {i : Instr} {c : FaultCause} (h : indexCause i = some c) : c.code ≤ 3 := by
  cases i <;> cases h <;> decide

/-- While the machine runs, no fault is recorded (10_state.md R31). -/
theorem Inv.fault_of_running {s : State} (hinv : Inv s) (hrun : s.status = .running) : s.fault = none :=
  hinv.faultRecorded.mpr (.inr (.inl hrun))

/-- A completed instruction leaves a running machine running or halted. -/
theorem completed_status_of_running {i : Instr} {s : State} (hrun : s.status = .running) :
    (completed i s).status = .running ∨ (completed i s).status = .halted := by
  rcases completed_status i s with ⟨hkeep, -⟩ | ⟨hhalt, -⟩
  · exact .inl (hkeep.trans hrun)
  · exact .inr hhalt

theorem completed_keeps_inv {i : Instr} {s : State} (hinv : Inv s) (hrun : s.status = .running)
    (hk : indexFault i s = none ∨ IndexOk i.operand) : Inv (completed i s) := by
  obtain ⟨hjp, hrom, hfault⟩ := completed_frame i s
  exact {
    noJumpPending := hjp
    ramCanonical := completed_ram_wf hk hinv.ramCanonical
    romCanonical := hrom ▸ hinv.romCanonical
    romEncodable := hrom ▸ hinv.romEncodable
    faultRecorded := iff_of_true (hfault.trans (hinv.fault_of_running hrun)) (.inr (completed_status_of_running hrun))
    faultPrecise := fun hfaulted => absurd hfaulted (completed_status_ne_faulted (by simp [hrun])) }

theorem faulted_keeps_inv {c : FaultCause} {k : S64} {s : State} (hinv : Inv s) (hc : c.code ≤ 3)
    (hk : ¬IndexOk k) : Inv (faulted c k s) where
  noJumpPending := hinv.noJumpPending
  ramCanonical := hinv.ramCanonical
  romCanonical := hinv.romCanonical
  romEncodable := hinv.romEncodable
  faultRecorded := by simp [faulted]
  faultPrecise := fun _ => ⟨c, k.toInt, rfl, hc, hk⟩

theorem step_keeps_inv {s t : State} (hinv : Inv s) (h : step s = .next t) : Inv t := by
  obtain ⟨hrun, hexec⟩ := step_next h
  rcases exec_cases (fetch s) s with ⟨hk, hcompleted⟩ | ⟨c, hcause, hbad, hfaulted⟩
  · obtain rfl : completed (fetch s) s = t := Host.Outcome.next.inj (hcompleted.symm.trans hexec)
    exact completed_keeps_inv hinv hrun hk
  · obtain rfl : faulted c (fetch s).operand s = t := Host.Outcome.next.inj (hfaulted.symm.trans hexec)
    exact faulted_keeps_inv hinv (code_le_of_indexCause (indexCause_of_indexFault hcause)) hbad

/-- Settles O35: a Step completes its instruction or takes the fault of a bad index, and both keep each part of `Inv`. -/
theorem stepKeepsInvariant : Obligations.StepKeepsInvariant := by
  unfold Obligations.StepKeepsInvariant
  exact fun s t => step_keeps_inv

/-! ### Reset and load -/

/-- Settles O34: reset empties both memories and clears `JP`, `STATUS` and `FAULT`, whatever the four parameters. -/
theorem resetMeetsInvariant : Obligations.ResetMeetsInvariant := by
  unfold Obligations.ResetMeetsInvariant
  intro v
  obtain ⟨hram, hrom⟩ := resetWith_memories_wf v
  exact {
    noJumpPending := resetWith_jp v
    ramCanonical := hram
    romCanonical := hrom
    romEncodable := by simp
    faultRecorded := by simp
    faultPrecise := by simp }

theorem failedLoad_keeps_inv {s : State} (f : FaultRecord) (hinv : Inv s) :
    Inv { s with status := .loadFailed, fault := some f } where
  noJumpPending := hinv.noJumpPending
  ramCanonical := hinv.ramCanonical
  romCanonical := hinv.romCanonical
  romEncodable := hinv.romEncodable
  faultRecorded := by simp
  faultPrecise := by simp

theorem loaded_keeps_inv {rs : List Instr} {s : State} (hinv : Inv s) (hs : s.status = .unloaded)
    (hlen : rs.length ≤ 256) (hwf : ∀ r ∈ rs, r.WellFormed) : Inv (loaded rs s) where
  noJumpPending := hinv.noJumpPending
  ramCanonical := hinv.ramCanonical
  romCanonical := romOf_wf (by simpa [Config.romSize] using hlen)
  romEncodable := fun _ hc =>
    have ⟨_, _, hmem⟩ := mem_romOf hc
    hwf _ hmem
  faultRecorded := iff_of_true (hinv.faultRecorded.mpr (.inl hs)) (.inr (.inl rfl))
  faultPrecise := fun hfaulted => Status.noConfusion hfaulted

theorem load_keeps_inv {bytes : List Byte} {s t : State} (hinv : Inv s) (h : loadImage bytes s = .next t) :
    Inv t := by
  obtain ⟨hs, ⟨c, n, l, rfl⟩ | ⟨rs, -, hn, hrs, rfl⟩⟩ := loadImage_next h
  · exact failedLoad_keeps_inv ⟨c, n, l⟩ hinv
  · have hlen : rs.length ≤ 256 := length_of_decodeImage hrs ▸ hn
    exact loaded_keeps_inv hinv hs hlen fun r hr => wellFormed_of_mem_decodeImage hrs hr

/-- Settles O36: a load records a load fault, or builds a ROM of decoded records. -/
theorem loadKeepsInvariant : Obligations.LoadKeepsInvariant := by
  unfold Obligations.LoadKeepsInvariant
  exact fun bytes s t => load_keeps_inv

/-! ### Along a run -/

/-- What every Step keeps, the run loop keeps. -/
theorem runLoop_keeps {P : State → Prop} (hstep : ∀ s t, P s → step s = .next t → P t) (n : Nat) {s : State}
    (h : P s) : P (runLoop n s) := by
  induction n generalizing s with
  | zero => exact h
  | succ n ih =>
    by_cases hrun : s.status = .running
    · obtain ⟨t, ht⟩ := exists_step_of_running hrun
      rw [runLoop_succ_of_next n ht]
      exact ih (hstep s t h ht)
    · rw [runLoop_succ_of_not_running n hrun]
      exact h

/-- Settles O37: reset meets the invariant, and the load and the Steps of the run keep it. -/
theorem everyRunMeetsInvariant : Obligations.EveryRunMeetsInvariant := by
  unfold Obligations.EveryRunMeetsInvariant
  intro bytes n s t hboot
  have hreset : Inv (resetMachine s) := resetMeetsInvariant Config.resetValues
  have hload : Inv t := load_keeps_inv hreset hboot
  exact runLoop_keeps (fun _ _ => step_keeps_inv) n hload

end Sys2Proof.Machine
end

section
/-!
PROOFS. The conditional jumps of 45_control_transfer.md, and the table of the flag outcomes of 44_arithmetic.md.
-/
namespace Sys2Proof.Machine

/-! ### Conditional jumps (R181 to R183) -/

/-- A taken jump to a good target where no jump is pending: `JP` is clear before and after. -/
theorem takeJump_of_not_pending {k : S64} {s : State} (h : s.jp = false) (hk : IndexOk k) :
    takeJump k s = .next { s with pc := .ofNat 8 k.toInt.toNat, jr := .ofNat 8 k.toInt.toNat } := by
  rw [takeJump_of_ok hk, ← h]

/-- Everything a conditional jump does where no jump is pending and an untaken one does not look at its operand. -/
theorem jumpIf_steers {taken : Bool} {k : S64} {s : State} (h : s.jp = false) :
    (taken = true → IndexOk k → ∃ t : U8, (t.toNat : Int) = k.toInt ∧
      jumpIf false taken k s = .next { s with pc := t, jr := t }) ∧
    (taken = true → ¬IndexOk k → jumpIf false taken k s = .next (faulted .jumpTargetFault k s)) ∧
    (taken = false → jumpIf false taken k s = .next { s with pc := s.pc + 1 }) := by
  rcases jumpIf_cases false taken k s with ⟨rfl, hjump⟩ | ⟨rfl, -, hjump⟩ | ⟨-, hcheck, -, -⟩
  · refine ⟨fun _ hk => ⟨_, hk.toNat_ofNat, ?good⟩, fun _ hk => ?bad, Bool.noConfusion⟩
    case good => rw [hjump, takeJump_of_not_pending h hk]
    case bad => rw [hjump, takeJump_of_bad hk, takeFault, faulted]
  · exact ⟨Bool.noConfusion, Bool.noConfusion, fun _ => by rw [hjump, complete_of_not_pending h]⟩
  · cases hcheck

/-- Settles O13: `JC` is the conditional jump on `CARRY`. -/
theorem jcSteersByCarry : Obligations.JcSteersByCarry := by
  unfold Obligations.JcSteersByCarry
  exact fun k s hjp => ⟨rfl, jumpIf_steers hjp⟩

/-- Settles O14: `JZ` is the conditional jump on `ZERO`. -/
theorem jzSteersByZero : Obligations.JzSteersByZero := by
  unfold Obligations.JzSteersByZero
  exact fun k s hjp => ⟨rfl, jumpIf_steers hjp⟩

/-- Settles O15: of an untaken jump's two cases only a checked, bad operand faults. -/
theorem untakenJumpLooksAtOperandOnlyIfChecked : Obligations.UntakenJumpLooksAtOperandOnlyIfChecked := by
  unfold Obligations.UntakenJumpLooksAtOperandOnlyIfChecked
  intro check k s hjp
  rcases jumpIf_cases check false k s with ⟨htaken, -⟩ | ⟨-, hok, hjump⟩ | ⟨-, hcheck, hbad, hjump⟩
  · cases htaken
  · have hnot : ¬(check = true ∧ ¬IndexOk k) := fun ⟨hcheck, hbad⟩ =>
      hok.elim (fun hfalse => Bool.noConfusion (hfalse.symm.trans hcheck)) hbad
    rw [if_neg hnot, hjump, complete_of_not_pending hjp]
  · rw [if_pos ⟨hcheck, hbad⟩, hjump, takeFault]

/-! ### The flags an ALU call leaves (44_arithmetic.md R176) -/

/-- A 64-bit value read in two's complement lies in the signed 64-bit range. -/
theorem s64_bounds (x : S64) : -2 ^ 63 ≤ x.toInt ∧ x.toInt ≤ 2 ^ 63 - 1 := by
  have hlo := BitVec.le_toInt x
  have hhi := BitVec.toInt_lt (x := x)
  omega

/-- `CARRY` is clear where the exact result fits. -/
theorem aluResult_not_carry_iff (z : Int) (s : State) :
    (aluResult z s).carry = false ↔ -2 ^ 63 ≤ z ∧ z ≤ 2 ^ 63 - 1 := by
  rw [aluResult_carry, Bool.not_eq_false', fits64_iff]

/-- `ZERO` says that the exact result is a multiple of `2^64`. -/
theorem aluResult_zero_iff_dvd (z : Int) (s : State) : (aluResult z s).zero = true ↔ (2 : Int) ^ 64 ∣ z := by
  rw [aluResult_zero_iff, aluResult_a]
  obtain ⟨q, hq⟩ := wrap64_congr z
  have hbounds := s64_bounds (wrap64 z)
  omega

/-- Settles O18: each flag as a condition on the exact result, which two 64-bit operands bound. -/
theorem aluFlagOutcomes : Obligations.AluFlagOutcomes := by
  unfold Obligations.AluFlagOutcomes
  intro x s
  have ha := s64_bounds s.a
  have hx := s64_bounds x
  refine ⟨?both, ?never, ?zeroOnly, ?equal⟩
  case both =>
    rw [aluAdd, aluResult_carry_iff, aluResult_zero_iff_dvd]
    omega
  case never =>
    rw [aluSub, aluResult_carry_iff, aluResult_zero_iff_dvd]
    omega
  case zeroOnly =>
    rw [aluAdd, aluResult_not_carry_iff, aluResult_zero_iff_dvd]
    omega
  case equal =>
    rw [aluSub, aluResult_zero_iff_dvd, ← BitVec.toInt_inj]
    omega

end Sys2Proof.Machine
end

section
/-!
PROOFS. What all instructions have in common: who may write which state (10_state.md R38), where `PC` goes
(41_execution_cycle.md R133, R138), what a Step makes of `STATUS` (R134), and a whole run (R136).
-/
namespace Sys2Proof.Machine

/-! ### What an effect may write (10_state.md R38) -/

/-- The write an instruction's effect makes: `Writes i s t` says that `t` is `s` after one of the six, by an instruction that
may make it. `effect_writes` ties it to `effect`. -/
inductive Writes (i : Instr) (s : State) : State → Prop
  | nothing (h : takenJump i s = false) : Writes i s s
  | jump (h : takenJump i s = true) : Writes i s (requestJump i.operand.toInt.toNat s)
  | store (k : S64) (h : i = .sta k) : Writes i s (ramWrite k.toInt.toNat s.a s)
  | emit (k : S64) (h : i = .out k) : Writes i s (emitA s)
  | load (k v : S64) (h : i = .lda k ∨ i = .ldi k ∨ i = .ldr k) : Writes i s (setA v s)
  | alu (k : S64) (z : Int) (h : i = .add k ∨ i = .sub k ∨ i = .adi k ∨ i = .adr k) : Writes i s (aluResult z s)

/-- A conditional jump writes nothing, or is taken. -/
theorem writes_conditional {i : Instr} {s : State} {flag : Bool} (htaken : takenJump i s = flag)
    (heffect : effect i s = if flag then requestJump i.operand.toInt.toNat s else s) : Writes i s (effect i s) := by
  cases flag
  · exact heffect ▸ .nothing htaken
  · exact heffect ▸ .jump htaken

theorem takenJump_jc (k : S64) (s : State) : takenJump (.jc k) s = s.carry := by
  cases h : s.carry <;> simp [takenJump, indexFault, indexCause, h]

theorem takenJump_jz (k : S64) (s : State) : takenJump (.jz k) s = s.zero := by
  cases h : s.zero <;> simp [takenJump, indexFault, indexCause, h]

theorem effect_writes (i : Instr) (s : State) : Writes i s (effect i s) := by
  cases i with
  | nop => exact .nothing rfl
  | hlt => exact .nothing rfl
  | jmp => exact .jump rfl
  | jc k => exact writes_conditional (takenJump_jc k s) rfl
  | jz k => exact writes_conditional (takenJump_jz k s) rfl
  | sta k => exact .store k rfl
  | out k => exact .emit k rfl
  | lda k => exact .load k _ (.inl rfl)
  | ldi v => exact .load v _ (.inr (.inl rfl))
  | ldr k => exact .load k _ (.inr (.inr rfl))
  | add k => exact .alu k _ (.inl rfl)
  | sub k => exact .alu k _ (.inr (.inl rfl))
  | adi v => exact .alu v _ (.inr (.inr (.inl rfl)))
  | adr k => exact .alu k _ (.inr (.inr (.inr rfl)))

section
variable {i : Instr} {s t : State}

theorem Writes.ram_eq (h : Writes i s t) (hsta : ∀ k, i ≠ .sta k) : t.ram = s.ram := by
  cases h with
  | store k hi => exact absurd hi (hsta k)
  | _ => rfl

theorem Writes.outTrace_eq (h : Writes i s t) (hout : ∀ k, i ≠ .out k) : t.outTrace = s.outTrace := by
  cases h with
  | emit k hi => exact absurd hi (hout k)
  | _ => rfl

/-- An effect emits at most one value, at the end of the trace (10_state.md R32). -/
theorem Writes.outTrace_extends (h : Writes i s t) :
    ∃ vs : List S64, t.outTrace = s.outTrace ++ vs ∧ vs.length ≤ 1 := by
  cases h with
  | emit => exact ⟨[s.a], rfl, Nat.le_refl 1⟩
  | _ => exact ⟨[], (List.append_nil _).symm, Nat.zero_le 1⟩

theorem Writes.flags_eq (h : Writes i s t) (hadd : ∀ k, i ≠ .add k) (hsub : ∀ k, i ≠ .sub k)
    (hadi : ∀ k, i ≠ .adi k) (hadr : ∀ k, i ≠ .adr k) : t.carry = s.carry ∧ t.zero = s.zero := by
  cases h with
  | alu k z hi =>
    rcases hi with hi | hi | hi | hi
    exacts [absurd hi (hadd k), absurd hi (hsub k), absurd hi (hadi k), absurd hi (hadr k)]
  | _ => exact ⟨rfl, rfl⟩

theorem Writes.a_eq (h : Writes i s t) (hlda : ∀ k, i ≠ .lda k) (hldi : ∀ k, i ≠ .ldi k)
    (hldr : ∀ k, i ≠ .ldr k) (hadd : ∀ k, i ≠ .add k) (hsub : ∀ k, i ≠ .sub k) (hadi : ∀ k, i ≠ .adi k)
    (hadr : ∀ k, i ≠ .adr k) : t.a = s.a := by
  cases h with
  | load k v hi =>
    rcases hi with hi | hi | hi
    exacts [absurd hi (hlda k), absurd hi (hldi k), absurd hi (hldr k)]
  | alu k z hi =>
    rcases hi with hi | hi | hi | hi
    exacts [absurd hi (hadd k), absurd hi (hsub k), absurd hi (hadi k), absurd hi (hadr k)]
  | _ => rfl

theorem Writes.jump_eq (h : Writes i s t) (hjump : takenJump i s = false) : t.jr = s.jr ∧ t.jp = s.jp := by
  cases h with
  | jump htaken => exact absurd htaken (by simp [hjump])
  | _ => exact ⟨rfl, rfl⟩

theorem effect_of_takenJump (h : takenJump i s = true) : effect i s = requestJump i.operand.toInt.toNat s := by
  have hwrites := effect_writes i s
  generalize effect i s = t at hwrites
  cases hwrites with
  | jump => rfl
  | nothing hnot => exact absurd h (by simp [hnot])
  | store k hi | emit k hi => exact absurd h (by simp [hi, takenJump, indexFault, indexCause])
  | load k v hi => rcases hi with rfl | rfl | rfl <;> simp [takenJump, indexFault, indexCause] at h
  | alu k z hi => rcases hi with rfl | rfl | rfl | rfl <;> simp [takenJump, indexFault, indexCause] at h

end

/-- What the control advance and the halt leave of an effect. -/
theorem completed_eq_effect (i : Instr) (s : State) :
    (completed i s).a = (effect i s).a ∧ (completed i s).carry = (effect i s).carry ∧
      (completed i s).zero = (effect i s).zero ∧ (completed i s).jr = (effect i s).jr ∧
      (completed i s).ram = (effect i s).ram ∧ (completed i s).outTrace = (effect i s).outTrace := by
  cases i <;> simp [completed, effect]

/-- Settles O19: a fault writes `STATUS` and `FAULT` only, a completed instruction what its effect may write. -/
theorem accessMatrixWrites : Obligations.AccessMatrixWrites := by
  unfold Obligations.AccessMatrixWrites
  intro i s t ht
  rcases exec_cases i s with ⟨-, hexec⟩ | ⟨c, -, -, hexec⟩
  · obtain rfl : completed i s = t := Host.Outcome.next.inj (hexec.symm.trans ht)
    have hwrites := effect_writes i s
    obtain ⟨-, hrom, hfault⟩ := completed_frame i s
    obtain ⟨ha, hcarry, hzero, hjr, hram, hout⟩ := completed_eq_effect i s
    refine ⟨hrom, fun hsta j => ?ram, fun h => hout.trans (hwrites.outTrace_eq h),
      fun hlda hldi hldr hadd hsub hadi hadr => ha.trans (hwrites.a_eq hlda hldi hldr hadd hsub hadi hadr),
      fun hadd hsub hadi hadr => ?flags, fun h => hjr.trans (hwrites.jump_eq h).1, fun hhlt => ?status, .inr hfault⟩
    case ram => rw [ramRead, ramRead, hram, hwrites.ram_eq hsta]
    case flags =>
      rw [hcarry, hzero]
      exact hwrites.flags_eq hadd hsub hadi hadr
    case status =>
      rcases completed_status i s with ⟨hkeep, -⟩ | ⟨-, k, hk⟩
      · exact .inr hkeep
      · exact absurd hk (hhlt k)
  · obtain rfl : faulted c i.operand s = t := Host.Outcome.next.inj (hexec.symm.trans ht)
    exact ⟨rfl, fun _ _ => rfl, fun _ => rfl, fun _ _ _ _ _ _ _ => rfl, fun _ _ _ _ => ⟨rfl, rfl⟩, fun _ => rfl,
      fun _ => .inl rfl, .inl rfl⟩

/-! ### Where `PC` goes (41_execution_cycle.md R133, R138) -/

/-- Up to `STATUS`, a completed instruction is its effect and the control advance. -/
theorem completed_eq_controlAdvance (i : Instr) (s : State) :
    completed i s = { controlAdvance (effect i s) with status := (completed i s).status } := by
  cases i <;> rfl

theorem completed_pc (i : Instr) (s : State) :
    (completed i s).pc = if (effect i s).jp then (effect i s).jr else s.pc + 1 := by
  obtain ⟨-, -, -, hpc⟩ := effect_frame i s
  rw [← hpc]
  exact (congrArg State.pc (completed_eq_controlAdvance i s)).trans (controlAdvance_pc _)

/-- A taken jump leaves its target in `PC` and `JR`. -/
theorem completed_of_takenJump {i : Instr} {s : State} (h : takenJump i s = true) :
    (completed i s).pc = .ofNat 8 i.operand.toInt.toNat ∧ (completed i s).jr = .ofNat 8 i.operand.toInt.toNat := by
  obtain ⟨-, -, -, hjr, -, -⟩ := completed_eq_effect i s
  rw [hjr, completed_pc, effect_of_takenJump h]
  exact ⟨rfl, rfl⟩

/-- Any other instruction goes on to the next record. -/
theorem completed_of_not_takenJump {i : Instr} {s : State} (hjp : s.jp = false) (h : takenJump i s = false) :
    (completed i s).pc = s.pc + 1 ∧ (completed i s).jr = s.jr := by
  obtain ⟨-, -, -, hjr, -, -⟩ := completed_eq_effect i s
  obtain ⟨hjrEffect, hjpEffect⟩ := (effect_writes i s).jump_eq h
  rw [hjr, completed_pc, hjpEffect, hjp]
  exact ⟨rfl, hjrEffect⟩

/-- Settles O24: a Step that does not fault completes, and its taken jump had a good index. -/
theorem controlAdvanceSeenFromOutside : Obligations.ControlAdvanceSeenFromOutside := by
  unfold Obligations.ControlAdvanceSeenFromOutside
  intro s t hjp hstep hstatus
  obtain ⟨-, hexec⟩ := step_next hstep
  rcases exec_cases (fetch s) s with ⟨hk, hcompleted⟩ | ⟨c, -, -, hfaulted⟩
  · obtain rfl : completed (fetch s) s = t := Host.Outcome.next.inj (hcompleted.symm.trans hexec)
    obtain ⟨hnotPending, -, -⟩ := completed_frame (fetch s) s
    refine ⟨hnotPending, fun htaken => ?taken, fun hnot => ?next⟩
    case taken =>
      obtain ⟨hpc, hjr⟩ := completed_of_takenJump htaken
      have hindex : IndexOk (fetch s).operand :=
        hk.resolve_left fun hnone => by simp [takenJump, hnone] at htaken
      exact ⟨hpc.trans hjr.symm, hpc ▸ hindex.toNat_ofNat⟩
    case next =>
      obtain ⟨hpc, hjr⟩ := completed_of_not_takenJump hjp hnot
      exact ⟨by rw [hpc, BitVec.toNat_add]; rfl, hjr⟩
  · obtain rfl : faulted c (fetch s).operand s = t := Host.Outcome.next.inj (hfaulted.symm.trans hexec)
    exact absurd rfl hstatus

/-! ### A Step, its status and its record (41_execution_cycle.md R131, R134) -/

/-- `HLT` uses its operand for nothing, so an instruction with a fault is another one. -/
theorem ne_hlt_of_indexFault {i : Instr} {s : State} {c : FaultCause} (h : indexFault i s = some c) :
    ¬∃ k, i = .hlt k := by
  rintro ⟨k, rfl⟩
  cases h

/-- Settles O25: a completed instruction keeps RUNNING or was HLT, and a fault is no HLT. -/
theorem statusAfterAStep : Obligations.StatusAfterAStep := by
  unfold Obligations.StatusAfterAStep
  intro s t hstep
  obtain ⟨hrun, hexec⟩ := step_next hstep
  rcases exec_cases (fetch s) s with ⟨-, hcompleted⟩ | ⟨c, hcause, -, hfaulted⟩
  · obtain rfl : completed (fetch s) s = t := Host.Outcome.next.inj (hcompleted.symm.trans hexec)
    rcases completed_status (fetch s) s with ⟨hkeep, hnot⟩ | ⟨hhalt, hhlt⟩
    · rw [hkeep, hrun]
      exact ⟨.inl rfl, iff_of_false Status.noConfusion fun ⟨k, hk⟩ => hnot k hk⟩
    · exact ⟨.inr (.inl hhalt), iff_of_true hhalt hhlt⟩
  · obtain rfl : faulted c (fetch s).operand s = t := Host.Outcome.next.inj (hfaulted.symm.trans hexec)
    exact ⟨.inr (.inr rfl), iff_of_false Status.noConfusion (ne_hlt_of_indexFault hcause)⟩

/-- Settles O26: a Step that is answered was taken while running, and a running machine always answers. -/
theorem stepIsTakenExactlyWhileRunning : Obligations.StepIsTakenExactlyWhileRunning := by
  unfold Obligations.StepIsTakenExactlyWhileRunning
  exact fun s => ⟨fun ⟨_, ht⟩ => (step_next ht).1, exists_step_of_running⟩

/-- Settles O27: the fetch is the read of the record at `PC`. -/
theorem stepRunsTheRecordAtPc : Obligations.StepRunsTheRecordAtPc := by
  unfold Obligations.StepRunsTheRecordAtPc
  exact fun s hrun => step_of_running hrun

theorem withFetchWord_of_decode {nbits w : Nat} {i : Instr} {s : State} (h : decodeTableWord nbits w = some i) :
    s.withFetchWord nbits w =
      { s with rom := Memory.write romDefault s.rom s.pc.toNat i, status := .running } := by
  simp only [State.withFetchWord, placeRecord, h]

/-- Settles O29: the fetch of the next Step reads the record just written at `PC`. -/
theorem placedWordRunsNext : Obligations.PlacedWordRunsNext := by
  unfold Obligations.PlacedWordRunsNext
  intro nbits w i s hwf hdecode
  rw [withFetchWord_of_decode hdecode]
  refine ⟨?_, rfl⟩
  rw [step_of_running rfl, fetch_of_running rfl, Memory.read_write_same hwf]

/-! ### A whole run (41_execution_cycle.md R136) -/

/-- Settles O31: a run that has ended is not running, so the loop takes no Step. -/
theorem endedRunIsFrozen : Obligations.EndedRunIsFrozen := by
  unfold Obligations.EndedRunIsFrozen
  intro n s hended
  cases n with
  | zero => rfl
  | succ n =>
    have hstopped : s.status ≠ .running := by
      rcases hended with h | h | h <;> simp [h]
    exact runLoop_succ_of_not_running n hstopped

/-- A Step keeps the ROM and extends the trace by at most one value (10_state.md R29, R32). -/
theorem step_rom_outTrace {s t : State} (h : step s = .next t) :
    t.rom = s.rom ∧ ∃ vs : List S64, t.outTrace = s.outTrace ++ vs ∧ vs.length ≤ 1 := by
  obtain ⟨-, hexec⟩ := step_next h
  obtain ⟨hrom, -⟩ := accessMatrixWrites (fetch s) s t hexec
  refine ⟨hrom, ?_⟩
  rcases exec_cases (fetch s) s with ⟨-, hcompleted⟩ | ⟨c, -, -, hfaulted⟩
  · obtain rfl : completed (fetch s) s = t := Host.Outcome.next.inj (hcompleted.symm.trans hexec)
    obtain ⟨-, -, -, -, -, hout⟩ := completed_eq_effect (fetch s) s
    exact hout ▸ (effect_writes (fetch s) s).outTrace_extends
  · obtain rfl : faulted c (fetch s).operand s = t := Host.Outcome.next.inj (hfaulted.symm.trans hexec)
    exact ⟨[], (List.append_nil _).symm, Nat.zero_le 1⟩

/-- Settles O32: induction on the bound, one Step's values before those of the rest of the run. -/
theorem runKeepsRomAndExtendsTrace : Obligations.RunKeepsRomAndExtendsTrace := by
  unfold Obligations.RunKeepsRomAndExtendsTrace
  intro n
  induction n with
  | zero => exact fun s => ⟨rfl, [], (List.append_nil _).symm, Nat.le_refl 0⟩
  | succ n ih =>
    intro s
    by_cases hrun : s.status = .running
    · obtain ⟨t, ht⟩ := exists_step_of_running hrun
      obtain ⟨hrom, vs, hvs, hlen⟩ := step_rom_outTrace ht
      obtain ⟨hromRest, ws, hws, hlenRest⟩ := ih t
      rw [runLoop_succ_of_next n ht]
      refine ⟨hromRest.trans hrom, vs ++ ws, by rw [hws, hvs, List.append_assoc], ?_⟩
      rw [List.length_append]
      omega
    · rw [runLoop_succ_of_not_running n hrun]
      exact ⟨rfl, [], (List.append_nil _).symm, Nat.zero_le _⟩

/-! ### Reset (10_state.md R35) -/

/-- Settles O33: the fields of `resetWith`. -/
theorem resetLeavesTheStatedValues : Obligations.ResetLeavesTheStatedValues := by
  unfold Obligations.ResetLeavesTheStatedValues
  exact ⟨fun v => ⟨ramRead_resetWith v, resetWith_pc v, resetWith_jp v, resetWith_status v, resetWith_fault v,
    resetWith_outTrace v, resetWith_a v, resetWith_jr v, resetWith_carry v, resetWith_zero v⟩, rfl⟩

end Sys2Proof.Machine
end

section
/-!
PROOFS. Which state no instruction but its own reader can see (10_state.md R23, R24, R25, R31, R32): two runs of one
instruction from states that are related give related next states, for each relation that the parts of a Step keep.
-/
namespace Sys2Proof.Machine

/-! ### Two runs of one instruction -/

/-- The control advance, the halt and a fault keep the relation `R` between two states. -/
structure KeptByStep (R : State → State → Prop) : Prop where
  advance : ∀ {s u}, R s u → R (controlAdvance s) (controlAdvance u)
  halt : ∀ {s u}, R s u → R { s with status := .halted } { u with status := .halted }
  fault : ∀ {s u} (c : FaultCause) (k : S64), R s u → R (faulted c k s) (faulted c k u)

/-- Related effects give related completed states. -/
theorem KeptByStep.completed_related {R : State → State → Prop} (hR : KeptByStep R) {i : Instr} {s u : State}
    (h : R (effect i s) (effect i u)) : R (completed i s) (completed i u) := by
  cases i
  case hlt => exact hR.halt (hR.advance h)
  all_goals exact hR.advance h

/-- An instruction that raises the same fault from both states, or none, leaves related states. -/
theorem KeptByStep.exec_related {R : State → State → Prop} (hR : KeptByStep R) {i : Instr} {s u : State} (h : R s u)
    (hfault : indexFault i u = indexFault i s) (heffect : R (effect i s) (effect i u)) :
    ∃ t v, exec i s = .next t ∧ exec i u = .next v ∧ R t v := by
  rcases exec_cases i s with ⟨hk, hexec⟩ | ⟨c, hcause, hbad, hexec⟩
  · exact ⟨_, _, hexec, exec_of_no_fault (hfault ▸ hk), hR.completed_related heffect⟩
  · exact ⟨_, _, hexec, exec_of_bad_index (hfault.trans hcause) hbad, hR.fault c i.operand h⟩

/-! ### `CARRY` and `ZERO` (R24, R25) -/

/-- The two states differ in `CARRY` at most. -/
def SameButCarry (s u : State) : Prop := ∃ b, u = { s with carry := b }

theorem sameButCarry_kept : KeptByStep SameButCarry where
  advance := by
    rintro s _ ⟨b, rfl⟩
    exact ⟨b, by cases h : s.jp <;> simp [controlAdvance, h]⟩
  halt := by rintro s _ ⟨b, rfl⟩; exact ⟨b, rfl⟩
  fault := by rintro s _ c k ⟨b, rfl⟩; exact ⟨b, rfl⟩

/-- No effect but that of `JC` looks at `CARRY`. -/
theorem effect_sameButCarry {i : Instr} (s : State) (b : Bool) (h : ∀ k, i ≠ .jc k) :
    SameButCarry (effect i s) (effect i { s with carry := b }) := by
  cases i
  case jc k => exact absurd rfl (h k)
  case jz => exact ⟨b, by cases hz : s.zero <;> simp [effect, hz, requestJump]⟩
  all_goals exact ⟨_, rfl⟩

/-- The two states differ in `ZERO` at most. -/
def SameButZero (s u : State) : Prop := ∃ b, u = { s with zero := b }

theorem sameButZero_kept : KeptByStep SameButZero where
  advance := by
    rintro s _ ⟨b, rfl⟩
    exact ⟨b, by cases h : s.jp <;> simp [controlAdvance, h]⟩
  halt := by rintro s _ ⟨b, rfl⟩; exact ⟨b, rfl⟩
  fault := by rintro s _ c k ⟨b, rfl⟩; exact ⟨b, rfl⟩

/-- No effect but that of `JZ` looks at `ZERO`. -/
theorem effect_sameButZero {i : Instr} (s : State) (b : Bool) (h : ∀ k, i ≠ .jz k) :
    SameButZero (effect i s) (effect i { s with zero := b }) := by
  cases i
  case jz k => exact absurd rfl (h k)
  case jc => exact ⟨b, by cases hc : s.carry <;> simp [effect, hc, requestJump]⟩
  all_goals exact ⟨_, rfl⟩

theorem indexFault_with_carry {i : Instr} (s : State) (b : Bool) (h : ∀ k, i ≠ .jc k) :
    indexFault i { s with carry := b } = indexFault i s := by
  cases i
  case jc k => exact absurd rfl (h k)
  all_goals rfl

theorem indexFault_with_zero {i : Instr} (s : State) (b : Bool) (h : ∀ k, i ≠ .jz k) :
    indexFault i { s with zero := b } = indexFault i s := by
  cases i
  case jz k => exact absurd rfl (h k)
  all_goals rfl

/-- Settles O20: no effect and no fault but those of `JC` (of `JZ`) looks at `CARRY` (at `ZERO`). -/
theorem flagsAreReadOnlyByTheirJump : Obligations.FlagsAreReadOnlyByTheirJump := by
  unfold Obligations.FlagsAreReadOnlyByTheirJump
  refine fun i s b => ⟨fun h => ?carry, fun h => ?zero⟩
  case carry =>
    obtain ⟨t, _, ht, hu, c, rfl⟩ :=
      sameButCarry_kept.exec_related ⟨b, rfl⟩ (indexFault_with_carry s b h) (effect_sameButCarry s b h)
    exact ⟨t, _, ht, hu, rfl⟩
  case zero =>
    obtain ⟨t, _, ht, hu, c, rfl⟩ :=
      sameButZero_kept.exec_related ⟨b, rfl⟩ (indexFault_with_zero s b h) (effect_sameButZero s b h)
    exact ⟨t, _, ht, hu, rfl⟩

/-! ### A stale `JR` (R23, R33) -/

/-- The two states differ in `JR` at most, and not where a jump is pending. -/
def SameButStaleJr (s u : State) : Prop := ∃ j, u = { s with jr := j } ∧ (s.jp = true → j = s.jr)

theorem sameButStaleJr_kept : KeptByStep SameButStaleJr where
  advance := by
    rintro s _ ⟨j, rfl, hpending⟩
    refine ⟨j, ?_, by simp⟩
    cases h : s.jp
    · simp [controlAdvance, h]
    · obtain rfl := hpending h
      simp [controlAdvance, h]
  halt := by rintro s _ ⟨j, rfl, hpending⟩; exact ⟨j, rfl, hpending⟩
  fault := by rintro s _ c k ⟨j, rfl, hpending⟩; exact ⟨j, rfl, hpending⟩

/-- No effect reads `JR`, and a taken jump overwrites it. -/
theorem effect_sameButStaleJr (i : Instr) {s : State} (j : U8) (h : s.jp = false) :
    SameButStaleJr (effect i s) (effect i { s with jr := j }) := by
  cases htaken : takenJump i s
  · obtain ⟨-, hjp⟩ := (effect_writes i s).jump_eq htaken
    refine ⟨j, ?_, by simp [hjp, h]⟩
    cases i
    case jmp => cases htaken
    case jc k => rw [takenJump_jc] at htaken; simp [effect, htaken]
    case jz k => rw [takenJump_jz] at htaken; simp [effect, htaken]
    all_goals rfl
  · have htaken' : takenJump i { s with jr := j } = true := htaken
    rw [effect_of_takenJump htaken, effect_of_takenJump htaken']
    exact ⟨_, rfl, fun _ => rfl⟩

/-- Settles O21: no effect and no fault looks at `JR`, and the control advance does only after a taken jump has written it. -/
theorem staleJumpRegisterIsNeverRead : Obligations.StaleJumpRegisterIsNeverRead := by
  unfold Obligations.StaleJumpRegisterIsNeverRead
  intro i s j hjp
  have hrelated : SameButStaleJr s { s with jr := j } := ⟨j, rfl, by simp [hjp]⟩
  have hfault : indexFault i { s with jr := j } = indexFault i s := rfl
  obtain ⟨t, _, ht, hu, c, rfl, -⟩ :=
    sameButStaleJr_kept.exec_related hrelated hfault (effect_sameButStaleJr i j hjp)
  exact ⟨t, _, ht, hu, rfl⟩

/-! ### `FAULT` and `OUT_TRACE` (R31, R32) -/

/-- The two states differ in `FAULT` and `OUT_TRACE` at most. -/
def SameButFaultTrace (s u : State) : Prop := ∃ f o, u = { s with fault := f, outTrace := o }

theorem sameButFaultTrace_kept : KeptByStep SameButFaultTrace where
  advance := by
    rintro s _ ⟨f, o, rfl⟩
    exact ⟨f, o, by cases h : s.jp <;> simp [controlAdvance, h]⟩
  halt := by rintro s _ ⟨f, o, rfl⟩; exact ⟨f, o, rfl⟩
  fault := by rintro s _ c k ⟨f, o, rfl⟩; exact ⟨_, o, rfl⟩

/-- No effect looks at `FAULT` or `OUT_TRACE`. -/
theorem effect_sameButFaultTrace (i : Instr) (s : State) (f : Option FaultRecord) (o : List S64) :
    SameButFaultTrace (effect i s) (effect i { s with fault := f, outTrace := o }) := by
  cases i
  case jc => exact ⟨f, o, by cases hc : s.carry <;> simp [effect, hc, requestJump]⟩
  case jz => exact ⟨f, o, by cases hz : s.zero <;> simp [effect, hz, requestJump]⟩
  all_goals exact ⟨_, _, rfl⟩

/-- Settles O22: no effect, no fault and no control advance looks at `FAULT` or `OUT_TRACE`. -/
theorem faultAndTraceAreNeverRead : Obligations.FaultAndTraceAreNeverRead := by
  unfold Obligations.FaultAndTraceAreNeverRead
  intro i s f o
  have hfault : indexFault i { s with fault := f, outTrace := o } = indexFault i s := rfl
  obtain ⟨t, _, ht, hu, g, p, rfl⟩ :=
    sameButFaultTrace_kept.exec_related ⟨f, o, rfl⟩ hfault (effect_sameButFaultTrace i s f o)
  exact ⟨t, _, ht, hu, rfl⟩

end Sys2Proof.Machine
end

section
/-!
PROOFS. The assembler's text (30_encoding.md section 6): Assemble line by line (R94), and ParseLine on the canonical text of a
record (R90, R91, R98).
-/
namespace Sys2Proof.Machine

/-! ### Assemble (R94) -/

/-- The lines parse to `i :: p` where the first parses to `i` and the rest to `p`. -/
theorem parseLines_cons_iff (l : List Char) (ls : List (List Char)) (q : List Instr) :
    parseLines (l :: ls) = .ok q ↔ ∃ i p, parseLine l = .ok i ∧ parseLines ls = .ok p ∧ q = i :: p := by
  cases hl : parseLine l with
  | error e => simp [parseLines, hl]
  | ok i =>
    cases hls : parseLines ls with
    | error e => simp [parseLines, hl, hls]
    | ok p => simp [parseLines, hl, hls, eq_comm]

theorem parseLines_iff (ls : List (List Char)) (p : List Instr) :
    parseLines ls = .ok p ↔ List.Forall₂ (fun l i => parseLine l = .ok i) ls p := by
  induction ls generalizing p with
  | nil => simp [parseLines, eq_comm]
  | cons l ls ih => simp only [parseLines_cons_iff, List.forall₂_cons_left_iff, ih]

/-- Settles O50: a text that is not blank is parsed line by line. -/
theorem assembleIsLineByLine : Obligations.AssembleIsLineByLine := by
  unfold Obligations.AssembleIsLineByLine
  intro text p htext
  rw [assemble, if_neg htext]
  exact parseLines_iff _ p

/-! ### Tokens of the canonical text (R90) -/

/-- Characters that are no white space are added to the token being read. -/
theorem tokens_append {w : List Char} (cur rest : List Char) (h : ∀ c ∈ w, isBlank c = false) :
    tokens cur (w ++ rest) = tokens (w.reverse ++ cur) rest := by
  induction w generalizing cur with
  | nil => rfl
  | cons c w ih =>
    obtain ⟨hc, hw⟩ := List.forall_mem_cons.mp h
    rw [List.cons_append, tokens, hc, List.reverse_cons, List.append_assoc]
    exact ih (c :: cur) hw

/-- A word alone is the one token. -/
theorem tokens_word {w : List Char} (hne : w ≠ []) (h : ∀ c ∈ w, isBlank c = false) : tokens [] w = [w] := by
  have happend := tokens_append [] [] h
  rw [List.append_nil, List.append_nil] at happend
  simp [happend, tokens, hne]

/-- A word before a space is the first token. -/
theorem tokens_word_space {w : List Char} (rest : List Char) (hne : w ≠ []) (h : ∀ c ∈ w, isBlank c = false) :
    tokens [] (w ++ ' ' :: rest) = w :: tokens [] rest := by
  have hspace : isBlank ' ' = true := by decide
  rw [tokens_append [] (' ' :: rest) h, List.append_nil, tokens, hspace]
  simp [hne]

/-! ### The mnemonics (R83) -/

/-- Every mnemonic is a word without white space. -/
theorem nameOf_word (i : Instr) : nameOf i ≠ [] ∧ ∀ c ∈ nameOf i, isBlank c = false := by
  have hall : nameOf i ≠ [] ∧ (nameOf i).all (fun c => !isBlank c) = true := by
    cases i <;> exact ⟨List.cons_ne_nil _ _, rfl⟩
  simpa using hall

/-- The mnemonic of an opcode names its tag. -/
theorem tagOfName_nameOf (i : Instr) : tagOfName (nameOf i) = some (tagOf i) := by
  cases i <;> rfl

/-! ### Decimal numbers (R91, R92) -/

theorem bounds_of_isDigit {c : Char} (h : c.isDigit = true) : 48 ≤ c.toNat ∧ c.toNat ≤ 57 :=
  Char.isDigit_iff_toNat.mp h

theorem isBlank_of_isDigit {c : Char} (h : c.isDigit = true) : isBlank c = false := by
  obtain ⟨hlo, hhi⟩ := bounds_of_isDigit h
  simp only [isBlank, Bool.or_eq_false_iff, Bool.and_eq_false_iff, decide_eq_false_iff_not, beq_eq_false_iff_ne]
  omega

theorem isDigit_of_mem_toDigits {n : Nat} {c : Char} (h : c ∈ Nat.toDigits 10 n) : c.isDigit = true :=
  Nat.isDigit_of_mem_toDigits (by decide) (by decide) h

theorem isDigits_toDigits (n : Nat) : isDigits (Nat.toDigits 10 n) = true := by
  have hdigit : ∀ c ∈ Nat.toDigits 10 n, 48 ≤ c.toNat ∧ c.toNat ≤ 57 :=
    fun c hc => bounds_of_isDigit (isDigit_of_mem_toDigits hc)
  simpa [isDigits] using hdigit

/-- A positive number has no leading zero. -/
theorem head_toDigits_ne_zero {n : Nat} (h : 0 < n) : (Nat.toDigits 10 n).head? ≠ some '0' := by
  induction n using Nat.strong_induction_on with
  | _ n ih =>
    by_cases hlt : n < 10
    · have hne : n ≠ 0 := h.ne'
      simp [Nat.toDigits_of_lt_base hlt, hne]
    · have hquot : (Nat.toDigits 10 (n / 10)).head? ≠ some '0' := ih (n / 10) (by omega) (by omega)
      rw [Nat.toDigits_of_base_le (by decide) (Nat.not_lt.mp hlt),
        List.head?_append_of_ne_nil _ Nat.toDigits_ne_nil]
      exact hquot

/-- A natural number is written in the form whose reading R92 settles. -/
theorem isPlainDigits_toDigits (n : Nat) : isPlainDigits (Nat.toDigits 10 n) = true := by
  rcases Nat.eq_zero_or_pos n with rfl | hpos
  · decide
  · simp [isPlainDigits, isDigits_toDigits, head_toDigits_ne_zero hpos]

/-- Its value is the number. -/
theorem magnitude_toDigits (tok : List Char) (n : Nat) : magnitude tok (Nat.toDigits 10 n) = some (n : Int) := by
  rw [magnitude, if_pos (isPlainDigits_toDigits n), digitsValue,
    Nat.ofDigitChars_toDigits (by decide) (by decide)]

/-- A token that begins with a digit has no sign. -/
theorem literalValue_of_isDigit {c : Char} (ds : List Char) (h : c.isDigit = true) :
    literalValue (c :: ds) = magnitude (c :: ds) (c :: ds) := by
  unfold literalValue
  split
  · next heq => cases heq; cases h
  · next heq => cases heq; cases h
  · rfl

theorem literalValue_decimal (z : Int) : literalValue (decimal z) = some z := by
  unfold decimal
  split
  · next hneg =>
    simp only [literalValue, magnitude_toDigits, Option.map_some]
    congr 1
    omega
  · next hnonneg =>
    have hvalue := magnitude_toDigits (Nat.toDigits 10 z.natAbs) z.natAbs
    obtain ⟨c, ds, hds⟩ := List.exists_cons_of_ne_nil (Nat.toDigits_ne_nil (n := z.natAbs) (b := 10))
    have hc : c.isDigit = true := isDigit_of_mem_toDigits (hds ▸ List.mem_cons_self)
    rw [hds] at hvalue ⊢
    rw [literalValue_of_isDigit ds hc, hvalue]
    congr 1
    omega

/-- The decimal text of a 64-bit value is the operand token for it. -/
theorem parseOperand_decimal (v : S64) : parseOperand (decimal v.toInt) = .ok v := by
  have hbounds := s64_bounds v
  have hrange : -9223372036854775808 ≤ v.toInt ∧ v.toInt ≤ 9223372036854775807 := by omega
  simp only [parseOperand, literalValue_decimal, if_pos hrange, BitVec.ofInt_toInt]

theorem decimal_ne_nil (z : Int) : decimal z ≠ [] := by
  unfold decimal
  split
  · exact List.cons_ne_nil _ _
  · exact Nat.toDigits_ne_nil

theorem isBlank_of_mem_decimal {z : Int} : ∀ c ∈ decimal z, isBlank c = false := by
  have hdigits : ∀ c ∈ Nat.toDigits 10 z.natAbs, isBlank c = false :=
    fun c hc => isBlank_of_isDigit (isDigit_of_mem_toDigits hc)
  unfold decimal
  split
  · exact List.forall_mem_cons.mpr ⟨by decide, hdigits⟩
  · exact hdigits

/-! ### ParseLine on the canonical text (R91, R98) -/

theorem parseTokens_with_operand {i : Instr} (h : takesOperand (tagOf i) = true) :
    parseTokens [nameOf i, decimal i.operand.toInt] = .ok i := by
  simp only [parseTokens, tagOfName_nameOf, h, parseOperand_decimal, ofTag_tagOf]

theorem parseTokens_without_operand {i : Instr} (h : takesOperand (tagOf i) = false) (hzero : i.operand = 0) :
    parseTokens [nameOf i] = .ok i := by
  have htag : ofTag (tagOf i) 0 = some i := hzero ▸ ofTag_tagOf i
  simp only [parseTokens, tagOfName_nameOf, h, htag]

/-- Settles O49: the tokens of the canonical text are the mnemonic and, where there is one, the operand's decimal text. -/
theorem canonicalTextParses : Obligations.CanonicalTextParses := by
  unfold Obligations.CanonicalTextParses
  intro i hi
  obtain ⟨hne, hblank⟩ := nameOf_word i
  cases htakes : takesOperand (tagOf i)
  · have hzero : i.operand = 0 := hi.resolve_left (by simp [htakes])
    have htext : disassemble i = nameOf i := by simp [disassemble, htakes, hzero]
    rw [htext, parseLine, tokens_word hne hblank, parseTokens_without_operand htakes hzero]
  · have htext : disassemble i = nameOf i ++ ' ' :: decimal i.operand.toInt := by simp [disassemble, htakes]
    rw [htext, parseLine, tokens_word_space _ hne hblank,
      tokens_word (decimal_ne_nil _) isBlank_of_mem_decimal, parseTokens_with_operand htakes]

end Sys2Proof.Machine
end
